-- ==== Sys2Proof/Word.lean ====
section
/-! DEFINITION. The two word types of RBF-CORE: a tape cell (10_state R21) and a program character
(30_encoding R61, R63). Positions, the cursor and the program counter are natural numbers (R7, R24),
so they have no word type. -/

namespace Sys2Proof

/-- A tape cell or a channel value: an unsigned 8-bit value (R21, R83, R85). -/
abbrev Byte := BitVec 8

/-- A program character. An instance with `CHAR_BITS = 21` uses all 21 bits; one with `CHAR_BITS = 8`
holds its characters zero-extended, which is how R63 compares codes under both widths. DEDUCED, safe:
log 3. -/
abbrev Character := BitVec 21

end Sys2Proof
end

