-- ==== Sys2Proof/Config.lean ====
section
/-! DEFINITION. What an implementation fixes: the parameters of 00_scope R6, the character codes of
30_encoding R62, and the one free value of the model, the value a host supplies to a `,`. -/

namespace Sys2Proof

/-- `CHAR_BITS`, the width of one program character (R6, R63). -/
inductive CharBits where
  | bits8
  | bits21
  deriving DecidableEq, Repr

/-- `UNMATCHED_OPEN_MODE`, what a failed forward scan does: `Continue` or `SkipToEnd` (R6, R92). -/
inductive UnmatchedOpenMode where
  | continues
  | skipToEnd
  deriving DecidableEq, Repr

/-- `READ_IMPL`, whether `,` reads the input channel (R6, R84, R86). -/
inductive ReadImpl where
  | input
  | unsupported
  deriving DecidableEq, Repr

/-- The implementation parameters of R6 other than `TAPE_LEN`, which CONSTRUCT supplies (R39).
`none` for a capacity is the spec's "unbounded". -/
structure Params where
  charBits : CharBits
  progMax : Option Nat
  stackDepth : Option Nat
  unmatchedOpenMode : UnmatchedOpenMode
  readImpl : ReadImpl
  deriving DecidableEq, Repr

/-- The parameters of `State.reset`: the spec's defaults of R6, and for the two OPEN capacities the
"unbounded" of 95_test_vectors' conventions. DESIGN CHOICE, unsafe: log 1. -/
def Params.default : Params where
  charBits := .bits8
  progMax := none
  stackDepth := none
  unmatchedOpenMode := .continues
  readImpl := .input

/-- The tape length of `State.reset`: R6 leaves `TAPE_LEN` OPEN and CONSTRUCT takes it as an argument.
DESIGN CHOICE, unsafe: log 2. -/
def Config.resetTapeLen : Nat := 256

/-- The code of each of the eight operation characters. -/
structure CodeTable where
  moveLeft : Character
  moveRight : Character
  increment : Character
  decrement : Character
  consolePrint : Character
  consoleRead : Character
  openLoop : Character
  closeLoop : Character
  deriving DecidableEq, Repr

/-- The character codes of R62, held in one table as 93_implementation_defined section 3 asks. -/
def Config.codes : CodeTable where
  moveLeft := 0x3C#21
  moveRight := 0x3E#21
  increment := 0x2B#21
  decrement := 0x2D#21
  consolePrint := 0x2E#21
  consoleRead := 0x2C#21
  openLoop := 0x5B#21
  closeLoop := 0x5D#21

/-- FREE VALUE. The value the host answers a `,` with when none stands in the queue, for the `n`-th such
draw: any of 0 .. 255 (R85, D10, 93 item 5), so nothing constrains it. Log 9. -/
opaque Config.inputValue : Nat → Byte

end Sys2Proof
end

