-- ==== Sys2Proof/Syntax.lean ====
section
/-! DEFINITION. The nine operations of RBF-CORE (30_encoding R62, R64), one constructor per row of
spec/opcode_table.json, under the operation names that R78 makes the mnemonics. -/

namespace Sys2Proof

/-- An instruction. No instruction has an operand field (R61). `skip` records the character it was
decoded from, so that the program text can be written back; no meaning reads it. DESIGN CHOICE, safe:
log 5. -/
inductive Instr where
  /-- `<` (R79) -/
  | moveLeft
  /-- `>` (R80) -/
  | moveRight
  /-- `+` (R81) -/
  | increment
  /-- `-` (R82) -/
  | decrement
  /-- `.` (R83) -/
  | consolePrint
  /-- `,` (R84 to R86) -/
  | consoleRead
  /-- `[` (R88) -/
  | openLoop
  /-- `]` (R89) -/
  | closeLoop
  /-- any other character (R98) -/
  | skip (ch : Character)
  deriving DecidableEq, Repr

end Sys2Proof
end

