-- ==== Sys2Proof/WellFormed.lean ====
section
/-! DEFINITION. Which characters an instance can hold (30_encoding R63) and which instructions its
program text can spell (R62, R64, R98). -/

namespace Sys2Proof

/-- The characters of an instance: with `CHAR_BITS = 8` a value below 256, with `CHAR_BITS = 21` a
Unicode scalar value (R63). That a scalar value is at most 0x10FFFF and no surrogate is PRESUMED, safe:
log 4. -/
def Character.legal : CharBits → Character → Bool
  | .bits8, ch => decide (ch.toNat < 0x100)
  | .bits21, ch => decide (ch.toNat < 0xD800) || (decide (0xE000 ≤ ch.toNat) && decide (ch.toNat ≤ 0x10FFFF))

/-- The character is one of the eight operation codes of R62. -/
def Character.isOperation (ch : Character) : Bool :=
  [Config.codes.moveLeft, Config.codes.moveRight, Config.codes.increment, Config.codes.decrement,
    Config.codes.consolePrint, Config.codes.consoleRead, Config.codes.openLoop,
    Config.codes.closeLoop].contains ch

/-- An instruction that some character of an instance with these `CHAR_BITS` spells: each of the eight
operations, and Skip of a legal character other than the eight codes (R98). -/
def WellFormed (w : CharBits) : Instr → Bool
  | .moveLeft => true
  | .moveRight => true
  | .increment => true
  | .decrement => true
  | .consolePrint => true
  | .consoleRead => true
  | .openLoop => true
  | .closeLoop => true
  | .skip ch => Character.legal w ch && !Character.isOperation ch

end Sys2Proof
end

