-- ==== Sys2Proof/Decode.lean ====
section
/-! DEFINITION. Decoding a character (30_encoding R64) and encoding an instruction, both from the one code
table of the configuration (R62). -/

namespace Sys2Proof

/-- `Decode` of R64: total, and no character is illegal (R73), so nothing is rejected. An opcode matches
only on the whole character (R63). -/
def decode (ch : Character) : Instr :=
  if ch = Config.codes.moveLeft then .moveLeft
  else if ch = Config.codes.moveRight then .moveRight
  else if ch = Config.codes.increment then .increment
  else if ch = Config.codes.decrement then .decrement
  else if ch = Config.codes.consolePrint then .consolePrint
  else if ch = Config.codes.consoleRead then .consoleRead
  else if ch = Config.codes.openLoop then .openLoop
  else if ch = Config.codes.closeLoop then .closeLoop
  else .skip ch

/-- The character that spells an instruction in program text (R76, R78). -/
def encode : Instr → Character
  | .moveLeft => Config.codes.moveLeft
  | .moveRight => Config.codes.moveRight
  | .increment => Config.codes.increment
  | .decrement => Config.codes.decrement
  | .consolePrint => Config.codes.consolePrint
  | .consoleRead => Config.codes.consoleRead
  | .openLoop => Config.codes.openLoop
  | .closeLoop => Config.codes.closeLoop
  | .skip ch => ch

/-- The mnemonic of an instruction: the operation name of R62 (R78). -/
def Instr.mnemonic : Instr → String
  | .moveLeft => "MoveLeft"
  | .moveRight => "MoveRight"
  | .increment => "Increment"
  | .decrement => "Decrement"
  | .consolePrint => "ConsolePrint"
  | .consoleRead => "ConsoleRead"
  | .openLoop => "OpenLoop"
  | .closeLoop => "CloseLoop"
  | .skip _ => "Skip"

/-- The assembly language is the program text itself, stored character for character, position 0 first (R76).
Each element of a text is a Unicode scalar value, one character of a 21-bit instance; the text of an 8-bit
instance is one whose values are all below 0x100 (R63). -/
def assemble (text : List Char) : List Character := text.map (fun c => BitVec.ofNat 21 c.toNat)

/-- The character of a row of spec/opcode_table.json whose bits are `w`. The table is written for
`CHAR_BITS = 8`, one character an instruction (R61), so it is bits 7:0 of the word; a bit above `nbits`
is 0. Log 19. -/
def Character.ofTableWord (nbits w : Nat) : Character :=
  BitVec.ofNat 21 (w % 2 ^ min nbits 8)

/-- The instruction the decoder reads from a table word. Decoding is total (R64), so it never refuses. -/
def decodeTableWord (nbits w : Nat) : Option Instr :=
  some (decode (Character.ofTableWord nbits w))

end Sys2Proof
end

