-- ==== Sys2Proof/Machine/State.lean ====
section
/-! DEFINITION. The architectural state of RBF-CORE (10_state R20), the model's own record of the two
channels, the reasons a step can stop, and the state after reset (R42). -/

namespace Sys2Proof.Machine

/-- The tape's contents: (cell index, value) pairs, indexes strictly rising, no value equal to what an
unlisted cell reads as. -/
abbrev Memory := List Host.Cell

/-- What an unlisted cell reads as: 0, the value R21 and R42 give every cell after CONSTRUCT. -/
abbrev Memory.unlisted : Byte := 0#8

/-- The canonical form of a tape: indexes strictly rising, and no listed value is the unlisted one. -/
abbrev Memory.wf (m : Memory) : Prop :=
  m.Pairwise (fun x y => x.1 < y.1) ∧ ∀ c ∈ m, c.2 ≠ Memory.unlisted

/-- The stored, sticky bits of `STATUS` (R35, R37). Bit 0 (`HALT`) is computed at every read (R36) and
bits 7:5 are hardwired to 0, so neither is stored. DEDUCED, safe: log 15. -/
structure StickyBits where
  uo : Bool
  uc : Bool
  ru : Bool
  so : Bool
  deriving DecidableEq, Repr

/-- The events that `STATUS` reports (R117). -/
inductive Cause where
  /-- UnmatchedOpenLoop (R118) -/
  | uo
  /-- UnmatchedCloseLoop (R119) -/
  | uc
  /-- ReadUnsupported (R121) -/
  | ru
  /-- StackOverflow (R120) -/
  | so
  deriving DecidableEq, Repr

/-- The engine state of R40, a function of the architectural state. -/
inductive EngineState where
  | running
  | halted
  | faulted
  deriving DecidableEq, Repr

/-- One channel access (R52): `.` emits a value, `,` receives one. -/
inductive ChannelEvent where
  | emitted (v : Byte)
  | received (v : Byte)
  deriving DecidableEq, Repr

/-- The MODEL's own record of the host's side of the input channel (R85, R110): `queue` holds the values
supplied and not yet taken, oldest first; with `answering` the host answers a `,` that finds the queue
empty with the free value `Config.inputValue draws`; without it such a `,` waits. DESIGN CHOICE: log 8. -/
structure InputPort where
  queue : List Byte
  answering : Bool
  draws : Nat
  deriving DecidableEq, Repr

/-- The machine. `params` to `sticky` are the state and configuration the spec gives (R6, R20); `input` and
`events` are the model's own record of the two ports, whose values are not state of RBF-CORE (R20). -/
structure State where
  /-- the parameters of R6, fixed for the instance's lifetime: log 1 -/
  params : Params
  /-- `TAPE_LEN` (R39) -/
  tapeLen : Nat
  /-- the tape's cells (R21) -/
  tape : Memory
  /-- the index of the current cell (R23) -/
  cursor : Nat
  /-- the loaded program; its length is `len(prog)` (R26, R27) -/
  prog : List Character
  /-- the program counter (R24) -/
  pc : Nat
  /-- the loop-start stack, bottom first (R29) -/
  stack : List Nat
  /-- the sticky bits of `STATUS` (R35) -/
  sticky : StickyBits
  /-- the host's side of the input channel (R85) -/
  input : InputPort
  /-- every channel access so far, in step order (R52, R56) -/
  events : List ChannelEvent
  deriving DecidableEq, Repr

/-- Why a step of the model stops. RBF-CORE itself never traps (R125); its StackOverflow is a NEXT state
with `STATUS.SO` set (R120). -/
inductive Fault where
  /-- Raised by `,` when the host has supplied no value and will answer none: the stuck step of R85. SAFE:
  the hardware waits, and the same step can be taken once the host supplies a value. -/
  | inputWait
  /-- Raised by an instruction that accesses the tape while the cursor names no cell of 0 .. TAPE_LEN-1. SAFE:
  R23 and R54 say no instance is ever in such a state. -/
  | noSuchCell
  deriving DecidableEq, Repr

/-- Why the model has no meaning for an instruction. -/
inductive Refusal where
  /-- Raised by an arm of `exec` whose instruction has no meaning yet; no arm does. SAFE. -/
  | notModelled (mnemonic : String)
  deriving DecidableEq, Repr

/-- What a step or a meaning answers. -/
abbrev Result := Host.Outcome State Fault Refusal

/-- The state right after CONSTRUCT(`memorySize`) (R42, R100, R133) on hardware with parameters `p`, with no
channel access made. The host is taken to answer every `,` as R110 requires of it. DESIGN CHOICE for the
port's values, unsafe: log 10. -/
def State.constructed (p : Params) (memorySize : Nat) : State where
  params := p
  tapeLen := memorySize
  tape := []
  cursor := 0
  prog := []
  pc := 0
  stack := []
  sticky := { uo := false, uc := false, ru := false, so := false }
  input := { queue := [], answering := true, draws := 0 }
  events := []

/-- The machine right after reset, which is CONSTRUCT (R133), at the parameters and the tape length that
log 1 and log 2 name. -/
def State.reset : State := State.constructed Params.default Config.resetTapeLen

end Sys2Proof.Machine
end

