-- ==== Sys2Proof/Machine/Ops.lean ====
section
/-! DEFINITION. The named operations over the state that every meaning is built from: reading and writing
the tape, one update per register, the loop-start stack (10_state R29), the channels (00_scope R10), raising
an event (60_exceptions R116, R120), and the fetch with its halt test (30_encoding R65, R66). -/

namespace Sys2Proof.Machine

/-! ### Tape memory -/

/-- The value of cell `a`. -/
def Memory.read : Memory → Nat → Byte
  | [], _ => Memory.unlisted
  | c :: m, a => if c.1 = a then c.2 else Memory.read m a

/-- List cell `a` with value `v` at its place in the order. -/
def Memory.insert : Memory → Nat → Byte → Memory
  | [], a, v => [(a, v)]
  | c :: m, a, v =>
    if a < c.1 then (a, v) :: c :: m
    else if a = c.1 then (a, v) :: m
    else c :: Memory.insert m a v

/-- The tape with cell `a` set to `v`. Writing the value an unlisted cell reads as removes the entry. -/
def Memory.write (m : Memory) (a : Nat) (v : Byte) : Memory :=
  if v = Memory.unlisted then m.filter (fun c => c.1 ≠ a) else Memory.insert m a v

/-! ### One update per register -/

def State.withTape (s : State) (m : Memory) : State := { s with tape := m }
def State.withCursor (s : State) (n : Nat) : State := { s with cursor := n }
def State.withProg (s : State) (cs : List Character) : State := { s with prog := cs }
def State.withPc (s : State) (n : Nat) : State := { s with pc := n }
def State.withStack (s : State) (l : List Nat) : State := { s with stack := l }
def State.withSticky (s : State) (b : StickyBits) : State := { s with sticky := b }
def State.withInput (s : State) (p : InputPort) : State := { s with input := p }
def State.withEvents (s : State) (l : List ChannelEvent) : State := { s with events := l }

/-- The advance common to every operation, `pc <- pc + 1` (R69). -/
def State.advance (s : State) : State := s.withPc (s.pc + 1)

/-- A step that executed its instruction: the advance, on top of any jump the operation made (R69). -/
def State.completed (s : State) : Result := .next s.advance

/-! ### The loop-start stack (R29) -/

/-- A program of `n` characters fits the program store (`PROG_MAX`, R27, R101). -/
def Params.fitsProgram (p : Params) (n : Nat) : Bool :=
  match p.progMax with
  | none => true
  | some k => decide (n ≤ k)

/-- A stack of `n` entries is full: `len(stack) = STACK_DEPTH` (R29); never when unbounded. -/
def Params.stackFull (p : Params) (n : Nat) : Bool :=
  match p.stackDepth with
  | none => false
  | some d => decide (n = d)

/-- `push(p)` of R29; `none` is the full stack, on which it raises `Fault(SO)`. -/
def State.push (s : State) (p : Nat) : Option State :=
  match Params.stackFull s.params s.stack.length with
  | true => none
  | false => some (s.withStack (s.stack ++ [p]))

/-- `top()` of R29; `none` when the stack is empty. -/
def State.top (s : State) : Option Nat := s.stack.getLast?

/-- `pop()` of R29: no change on an empty stack (R94). -/
def State.pop (s : State) : State := s.withStack s.stack.dropLast

/-! ### The channels -/

/-- `Emit(v)` of R10: one output event at the end of the record (R52, R83). -/
def State.emit (s : State) (v : Byte) : State := s.withEvents (s.events ++ [.emitted v])

/-- `Receive()` of R10 and R85: the value the host supplies and the state with that access recorded (R52);
`none` while the host supplies none. A value in the queue is taken first; from an empty queue an
answering host gives the next free value. Log 8, log 9. -/
def State.receive (s : State) : Option (Byte × State) :=
  match s.input.queue with
  | v :: rest =>
    some (v, (s.withInput { s.input with queue := rest }).withEvents (s.events ++ [.received v]))
  | [] =>
    match s.input.answering with
    | true =>
      some (Config.inputValue s.input.draws,
        (s.withInput { s.input with draws := s.input.draws + 1 }).withEvents
          (s.events ++ [.received (Config.inputValue s.input.draws)]))
    | false => none

/-! ### Events: the only exception mechanism (R116, R120, R125). There is no return from one (R126). -/

/-- The sticky bits after the event `c` (R35, R37). -/
def StickyBits.set (b : StickyBits) : Cause → StickyBits
  | .uo => { b with uo := true }
  | .uc => { b with uc := true }
  | .ru => { b with ru := true }
  | .so => { b with so := true }

/-- `STATUS[code] <- 1`, the one effect every event has (R116, R120). No register is saved and control is not
transferred (R122, R125). -/
def State.raise (s : State) (c : Cause) : State := s.withSticky (s.sticky.set c)

/-- `raise Fault(SO)`: the step ends at once with `STATUS.SO` set; `pc` is not advanced and nothing else
changes (R68, R120). It is a next state, in which the engine is Faulted (R40): log 13. -/
def State.raiseFault (s : State) : Result := .next (s.raise .so)

/-! ### Engine state and fetch -/

/-- The engine state (R40). -/
def State.engineState (s : State) : EngineState :=
  if s.sticky.so then .faulted else if s.prog.length ≤ s.pc then .halted else .running

/-- The halt test and the fetch (R65, R66): the character at `pc` when the engine is Running, else none. -/
def State.fetch (s : State) : Option Character :=
  match s.engineState with
  | .running => s.prog[s.pc]?
  | .halted => none
  | .faulted => none

end Sys2Proof.Machine
end

