-- ==== Sys2Proof/Machine/Operands.lean ====
section
/-! DEFINITION. The one operand form of RBF-CORE: the implicit current cell `tape[cursor]` (20_memory R44,
30_encoding R71). There are no registers, immediates or other addressing modes (10_state R33). -/

namespace Sys2Proof.Machine

/-- `tape[cursor]` when the cursor names a cell (R11, R23). -/
def State.currentCell (s : State) : Byte := s.tape.read s.cursor

/-- Run `k` on an existing current cell. Every cursor value 0 .. TAPE_LEN-1 is a legal address (R49) and no
other cell exists; the stop is in no reachable state (R54). DESIGN CHOICE, safe: log 7. -/
def State.onCell (s : State) (k : Result) : Result :=
  if s.cursor < s.tapeLen then k else .fault .noSuchCell

/-- `tape[cursor] <- v` (R10, R47). -/
def State.writeCell (s : State) (v : Byte) : State := s.withTape (s.tape.write s.cursor v)

end Sys2Proof.Machine
end

