-- ==== Sys2Proof/Machine/Flags.lean ====
section
/-! DEFINITION. RBF-CORE has no flags (10_state R34): the one condition is whether the current cell is nonzero.
This file holds that condition and the reading of the `STATUS` register (R35, R36, 60_exceptions R117). -/

namespace Sys2Proof.Machine

/-- "The current tape cell is nonzero" (R34, R88, R89). -/
def State.cellNonzero (s : State) : Bool := decide (s.currentCell ≠ 0#8)

/-- The cause code of an event: the index of its `STATUS` bit (R117). -/
def Cause.code : Cause → Nat
  | .uo => 1
  | .uc => 2
  | .ru => 3
  | .so => 4

/-- `STATUS.HALT`, computed at every read: `pc ≥ len(prog)` or Faulted (R35, R36). -/
def State.haltBit (s : State) : Bool := decide (s.prog.length ≤ s.pc) || s.sticky.so

/-- The 8-bit `STATUS` register: HALT in bit 0, UO, UC, RU, SO in bits 1 to 4, bits 7:5 read as 0 (R35). -/
def State.status (s : State) : BitVec 8 :=
  0#3 ++ BitVec.ofBool s.sticky.so ++ BitVec.ofBool s.sticky.ru ++ BitVec.ofBool s.sticky.uc ++
    BitVec.ofBool s.sticky.uo ++ BitVec.ofBool s.haltBit

end Sys2Proof.Machine
end

