-- ==== Sys2Proof/Machine/Channel.lean ====
section
/-! DEFINITION. The channel operations `.` and `,` (41_io R83 to R86). -/

namespace Sys2Proof.Machine

/-- `.` ConsolePrint (R83): `Emit(v)`; the step never waits. -/
def execConsolePrint (s : State) : Result :=
  s.onCell (s.emit s.currentCell).completed

/-- `,` ConsoleRead: with `READ_IMPL = Input`, `tape[cursor] <- Receive()` (R84), and the step waits while the
host supplies no value (R85); with `Unsupported`, only `STATUS.RU <- 1` (R86, R121). -/
def execConsoleRead (s : State) : Result :=
  match s.params.readImpl with
  | .input =>
    s.onCell
      (match s.receive with
        | some (v, s') => (s'.writeCell v).completed
        | none => .fault .inputWait)
  | .unsupported => (s.raise .ru).completed

end Sys2Proof.Machine
end

