-- ==== Sys2Proof/Machine/Scan.lean ====
section
/-! DEFINITION. The forward scan of the bracket matcher: `ScanForward` as a function (42_loop R87), which the
meaning of `[` uses, and the scan machine of R97 beside it, transition by transition. -/

namespace Sys2Proof.Machine

/-- What a forward scan returns (R87). -/
inductive ScanResult where
  | found (m : Nat)
  | notFound
  deriving DecidableEq, Repr

/-- The loop of R87 over the characters from position `i` on, with `depth` unclosed brackets. A scan that
starts at a `[` keeps `depth ≥ 1` after its first character (R90), so the subtraction never truncates. -/
def scanFrom : List Character → Nat → Nat → ScanResult
  | [], _, _ => .notFound
  | ch :: rest, i, depth =>
    if ch = Config.codes.openLoop then scanFrom rest (i + 1) (depth + 1)
    else if ch = Config.codes.closeLoop then
      if depth - 1 = 0 then .found i else scanFrom rest (i + 1) (depth - 1)
    else scanFrom rest (i + 1) depth

/-- `ScanForward(p)` of R87. -/
def scanForward (prog : List Character) (p : Nat) : ScanResult := scanFrom (prog.drop p) p 0

/-- The states of the scan machine (R97). -/
inductive ScanState where
  | idle
  | scan (i depth : Nat)
  deriving DecidableEq, Repr

/-- The scan machine and the result it left with, if it has left. -/
structure ScanMachine where
  state : ScanState
  result : Option ScanResult
  deriving DecidableEq, Repr

/-- Entry from IDLE goes to SCAN(pc, 0) (R97). -/
def ScanMachine.start (p : Nat) : ScanMachine := { state := .scan p 0, result := none }

/-- One transition: it consumes `prog[i]` by R87, or leaves to IDLE with the result. -/
def ScanMachine.next (prog : List Character) (m : ScanMachine) : ScanMachine :=
  match m.state with
  | .idle => m
  | .scan i depth =>
    match prog[i]? with
    | none => { state := .idle, result := some .notFound }
    | some ch =>
      if ch = Config.codes.openLoop then { state := .scan (i + 1) (depth + 1), result := none }
      else if ch = Config.codes.closeLoop then
        if depth - 1 = 0 then { state := .idle, result := some (.found i) }
        else { state := .scan (i + 1) (depth - 1), result := none }
      else { state := .scan (i + 1) depth, result := none }

/-- `n` transitions of the scan machine. -/
def ScanMachine.run (prog : List Character) : Nat → ScanMachine → ScanMachine
  | 0, m => m
  | n + 1, m => ScanMachine.run prog n (m.next prog)

end Sys2Proof.Machine
end

