-- ==== Sys2Proof/Machine/Loop.lean ====
section
/-! DEFINITION. The loop operations `[` and `]` (42_loop R88, R89, R92 to R95). -/

namespace Sys2Proof.Machine

/-- `pc` after a forward scan that found no match (R92): the `[` itself with `Continue`, the last position of
the program with `SkipToEnd`. -/
def State.afterUnmatchedOpen (s : State) : State :=
  match s.params.unmatchedOpenMode with
  | .continues => s
  | .skipToEnd => s.withPc (s.prog.length - 1)

/-- `[` OpenLoop (R88): a nonzero cell enters the loop, or overflows a full stack (R120); a zero cell skips to
the match, or reports UnmatchedOpenLoop (R92). -/
def execOpenLoop (s : State) : Result :=
  s.onCell
    (match s.cellNonzero with
      | true =>
        match s.push s.pc with
        | some s' => s'.completed
        | none => s.raiseFault
      | false =>
        match scanForward s.prog s.pc with
        | .found m => (s.withPc m).completed
        | .notFound => (s.raise .uo).afterUnmatchedOpen.completed)

/-- `]` CloseLoop (R89): a nonzero cell repeats from the stack's top (R95), or reports UnmatchedCloseLoop on an
empty stack (R93); a zero cell pops (R94). -/
def execCloseLoop (s : State) : Result :=
  s.onCell
    (match s.cellNonzero with
      | true =>
        match s.top with
        | some p => (s.withPc p).completed
        | none => (s.raise .uc).completed
      | false => s.pop.completed)

end Sys2Proof.Machine
end

