-- ==== Sys2Proof/Machine/Skip.lean ====
section
/-! DEFINITION. The default operation Skip (43_skip R98). -/

namespace Sys2Proof.Machine

/-- Skip (R98): only the common advance. The character is not looked at: `ch` is unused. -/
def execSkip (_ch : Character) (s : State) : Result := s.completed

end Sys2Proof.Machine
end

