-- ==== Sys2Proof/Machine/Tape.lean ====
section
/-! DEFINITION. The tape operations `<` `>` `+` `-` (40_tape R79 to R82). -/

namespace Sys2Proof.Machine

/-- `<` MoveLeft (R79): the tape is not accessed. -/
def execMoveLeft (s : State) : Result :=
  (s.withCursor (if s.cursor > 0 then s.cursor - 1 else s.tapeLen - 1)).completed

/-- `>` MoveRight (R80): the tape is not accessed. -/
def execMoveRight (s : State) : Result :=
  (s.withCursor (if s.cursor < s.tapeLen - 1 then s.cursor + 1 else 0)).completed

/-- `+` Increment (R81): `tape[cursor] <- (v + 1) mod 256`. -/
def execIncrement (s : State) : Result :=
  s.onCell (s.writeCell (s.currentCell + 1#8)).completed

/-- `-` Decrement (R82): `tape[cursor] <- (v - 1) mod 256`. -/
def execDecrement (s : State) : Result :=
  s.onCell (s.writeCell (s.currentCell - 1#8)).completed

end Sys2Proof.Machine
end

