-- ==== Sys2Proof/Machine/Dispatch.lean ====
section
/-! DEFINITION. Dispatch: one arm per operation, each the whole of its step after fetch and decode
(30_encoding R68, R69). -/

namespace Sys2Proof.Machine

def exec (i : Instr) (s : State) : Host.Outcome State Fault Refusal :=
  match i with
  | .moveLeft => Sys2Proof.Machine.execMoveLeft s
  | .moveRight => Sys2Proof.Machine.execMoveRight s
  | .increment => Sys2Proof.Machine.execIncrement s
  | .decrement => Sys2Proof.Machine.execDecrement s
  | .consolePrint => Sys2Proof.Machine.execConsolePrint s
  | .consoleRead => Sys2Proof.Machine.execConsoleRead s
  | .openLoop => Sys2Proof.Machine.execOpenLoop s
  | .closeLoop => Sys2Proof.Machine.execCloseLoop s
  | .skip ch => Sys2Proof.Machine.execSkip ch s

end Sys2Proof.Machine
end

