-- ==== Sys2Proof/Machine/Step.lean ====
section
/-! DEFINITION. One STEP of the engine (30_encoding R71), and the host's probe that places one instruction where
the next step fetches. -/

namespace Sys2Proof.Machine

/-- One STEP (R71). Halted or Faulted it changes nothing (R65); Running it executes the character at `pc`
(R66 to R69). Whether STEP returns true or false is `State.stepReturns` of HostInterface. -/
def step (s : State) : Host.Outcome State Fault Refusal :=
  match s.fetch with
  | none => .next s
  | some ch => exec (decode ch) s

/-- `s` with the one-character program of that table word loaded, as LOAD does (R101): the program and `pc`.
A Faulted engine fetches nothing (R65), so `STATUS.SO` is cleared as well. Log 17. -/
def State.withFetchWord (s : State) (nbits w : Nat) : State :=
  ((s.withProg [Character.ofTableWord nbits w]).withPc 0).withSticky { s.sticky with so := false }

end Sys2Proof.Machine
end

