-- ==== Sys2Proof/Machine/HostInterface.lean ====
section
/-! DEFINITION. The host interface (44_host_interface R99 to R112): CONSTRUCT, LOAD, STEP, RUN and INSPECT, each an
atomic command on a state between steps, and the host's side of the two channels. -/

namespace Sys2Proof.Machine

/-- CONSTRUCT(`memorySize`) (R100, R133); `none` is the refusal of 0. The hardware's parameters stay, every
piece of the instance's state is reset (R42), and the record of delivered output stays (R135). That the input
values supplied and not yet taken stay too, with `answering` and `draws`, is the model's choice, on which the spec
is silent: DESIGN CHOICE, unsafe: log 24. -/
def State.construct (memorySize : Nat) (s : State) : Option State :=
  if memorySize = 0 then none
  else some (((State.constructed s.params memorySize).withInput s.input).withEvents s.events)

/-- LOAD(`source`) (R101); `none` is `refused`, for a source longer than `PROG_MAX` (R102). -/
def State.load (source : List Character) (s : State) : Option State :=
  if Params.fitsProgram s.params source.length then some ((s.withProg source).withPc 0) else none

/-- The Bool STEP returns from `s` when its step ends in `t`: true exactly when an instruction executed and
raised no fault (R65, R68, R70). -/
def State.stepReturns (s t : State) : Bool := decide (s.engineState = .running) && !t.sticky.so

/-- What an INSPECT can ask for (R106 to R108). -/
inductive Inspect where
  | tape (i : Nat)
  | cursor
  | pc
  | source
  | memorySize
  | status
  deriving DecidableEq, Repr

/-- What an INSPECT returns. -/
inductive InspectValue where
  | cell (v : Byte)
  | number (n : Nat)
  | source (len : Nat) (characters : List Character)
  | statusBits (v : BitVec 8)
  deriving DecidableEq, Repr

/-- INSPECT (R106 to R108): `none` is the refusal of a tape index that names no cell. Nothing returns the
loop-start stack (R32). -/
def State.inspect (s : State) : Inspect → Option InspectValue
  | .tape i => if i < s.tapeLen then some (.cell (s.tape.read i)) else none
  | .cursor => some (.number s.cursor)
  | .pc => some (.number s.pc)
  | .source => some (.source s.prog.length s.prog)
  | .memorySize => some (.number s.tapeLen)
  | .status => some (.statusBits s.status)

/-- The five commands (R99). RUN carries the step budget a model runs it under (R15). -/
inductive Command where
  | construct (memorySize : Nat)
  | load (source : List Character)
  | step
  | run (fuel : Nat)
  | inspect (what : Inspect)
  deriving DecidableEq, Repr

/-- What a command answers. -/
inductive Reply where
  /-- a command with no result has returned -/
  | done
  /-- LOAD's `ok` -/
  | ok
  /-- CONSTRUCT, LOAD or INSPECT is refused -/
  | refused
  /-- the Bool of STEP -/
  | bool (b : Bool)
  /-- the value of INSPECT -/
  | value (v : InspectValue)
  /-- the command has not returned: its step waits for input (R85), or stops as the model's fault says -/
  | waiting (f : Fault)
  /-- the step's instruction has no meaning in the model -/
  | unmodelled (r : Refusal)
  /-- RUN's step budget is used up: no claim (R15, R141) -/
  | unfinished
  deriving DecidableEq, Repr

/-- STEP (R103). A step that does not complete leaves the state as it was. -/
def State.stepCommand (s : State) : Reply × State :=
  match step s with
  | .next t => (.bool (s.stepReturns t), t)
  | .fault f => (.waiting f, s)
  | .refused r => (.unmodelled r, s)

/-- RUN (R104): STEP until one returns false, at most `fuel` of them (R15). -/
def State.runCommand : Nat → State → Reply × State
  | 0, s => (.unfinished, s)
  | fuel + 1, s =>
    match s.stepCommand with
    | (.bool true, t) => State.runCommand fuel t
    | (.bool false, t) => (.done, t)
    | (r, t) => (r, t)

/-- One command of the host, issued between steps (R111). A refused command changes no state. For
CONSTRUCT(0) that is a DESIGN CHOICE, unsafe: log 18. -/
def State.command (s : State) : Command → Reply × State
  | .construct n =>
    match s.construct n with
    | some t => (.done, t)
    | none => (.refused, s)
  | .load source =>
    match s.load source with
    | some t => (.ok, t)
    | none => (.refused, s)
  | .step => s.stepCommand
  | .run fuel => s.runCommand fuel
  | .inspect what =>
    match s.inspect what with
    | some v => (.value v, s)
    | none => (.refused, s)

/-- The host supplies one value on the input channel (R85, R110): it waits behind those supplied before. -/
def State.supplyInput (s : State) (v : Byte) : State :=
  s.withInput { s.input with queue := s.input.queue ++ [v] }

/-- Whether the host answers a `,` that finds no value supplied, as R110 asks of it, or leaves it waiting (R85). -/
def State.setAnswering (s : State) (b : Bool) : State :=
  s.withInput { s.input with answering := b }

/-- The value of an output event. -/
def ChannelEvent.output : ChannelEvent → Option Byte
  | .emitted v => some v
  | .received _ => none

/-- The model's output observation: the `Emit` values in the order their `.` steps executed (R56, R109). -/
def State.outputs (s : State) : List Byte := s.events.filterMap ChannelEvent.output

end Sys2Proof.Machine
end

