-- ==== Sys2Proof/Safety.lean ====
section
/-! DEFINITION. What the spec promises of every state of an instance, in the terms the statements use: the
ranges and bounds of 10_state, bracket balance (42_loop R91), the loop-start stack of a program (R30, R31,
R96), and relations between two states that differ in one part. -/

namespace Sys2Proof.Machine

/-- A stack of `n` entries is within `STACK_DEPTH` (R20). -/
def Params.stackWithin (p : Params) (n : Nat) : Bool :=
  match p.stackDepth with
  | none => true
  | some d => decide (n ≤ d)

/-- The ranges and bounds the spec gives the state of every instance (R6, R7, R20 to R27, R41). -/
structure State.Inv (s : State) : Prop where
  /-- `TAPE_LEN ≥ 1` (R6, R39) -/
  tapeLen_pos : 0 < s.tapeLen
  /-- `0 ≤ cursor < TAPE_LEN` (R23) -/
  cursor_lt : s.cursor < s.tapeLen
  /-- the tape's list keeps its canonical form -/
  tape_wf : Memory.wf s.tape
  /-- only cells 0 .. TAPE_LEN-1 exist (R21) -/
  tape_in : ∀ c ∈ s.tape, c.1 < s.tapeLen
  /-- `STACK_DEPTH ≥ 1` (R6) -/
  depth_pos : s.params.stackDepth ≠ some 0
  /-- `len(prog) ≤ PROG_MAX` (R27) -/
  prog_fits : Params.fitsProgram s.params s.prog.length = true
  /-- every character is one of `CHAR_BITS` (R26, R63) -/
  prog_legal : ∀ ch ∈ s.prog, Character.legal s.params.charBits ch = true
  /-- `len(stack) ≤ STACK_DEPTH` (R20) -/
  stack_within : Params.stackWithin s.params s.stack.length = true
  /-- every entry is a position `0 .. PROG_MAX-1` (R7) -/
  entries_fit : ∀ e ∈ s.stack, Params.fitsProgram s.params (e + 1) = true
  /-- `0 ≤ pc ≤ PROG_MAX` (R25) -/
  pc_fits : Params.fitsProgram s.params s.pc = true
  /-- Faulted only by a push onto a full stack of finite depth (R41) -/
  so_full : s.sticky.so = true → s.params.stackDepth = some s.stack.length
  /-- `RU` only with `READ_IMPL = Unsupported` (R35) -/
  ru_unsupported : s.sticky.ru = true → s.params.readImpl = .unsupported

/-- What a character counts in R91: `[` as +1, `]` as −1, any other as 0. -/
def bracketCount (ch : Character) : Int :=
  if ch = Config.codes.openLoop then 1
  else if ch = Config.codes.closeLoop then -1
  else 0

/-- The running sum of R91 over a text. -/
def bracketSum (cs : List Character) : Int := (cs.map bracketCount).sum

/-- Bracket-balanced (R91): the running sum never drops below 0 and ends at 0. -/
def Balanced (cs : List Character) : Prop :=
  (∀ n, 0 ≤ bracketSum (cs.take n)) ∧ bracketSum cs = 0

/-- `m` is the syntactic partner of `p` (R91): `prog[p .. m]` is balanced and no proper nonempty prefix of it
is. -/
def IsMatch (prog : List Character) (p m : Nat) : Prop :=
  p < m ∧ m < prog.length ∧ prog[m]? = some Config.codes.closeLoop ∧
    Balanced ((prog.drop p).take (m + 1 - p)) ∧
    ∀ n, 0 < n → n < m + 1 - p → ¬ Balanced ((prog.drop p).take n)

/-- The positions of the `[`s of a text that are not yet closed, innermost last, reading from position `i`
with those of `opened` already open. -/
def openFrom : List Character → Nat → List Nat → List Nat
  | [], _, opened => opened
  | ch :: rest, i, opened =>
    if ch = Config.codes.openLoop then openFrom rest (i + 1) (opened ++ [i])
    else if ch = Config.codes.closeLoop then openFrom rest (i + 1) opened.dropLast
    else openFrom rest (i + 1) opened

/-- The positions of the `[`s whose loops enclose position `p`, innermost last (R96 (c)). -/
def enclosingOpens (prog : List Character) (p : Nat) : List Nat := openFrom (prog.take p) 0 []

/-- R96 (c): between the steps of a well-formed program the stack holds exactly the positions of the `[`s whose
loops enclose `pc`, innermost on top; `pc` is within the program. -/
def State.StackEncloses (s : State) : Prop :=
  s.pc ≤ s.prog.length ∧ s.stack = enclosingOpens s.prog s.pc

/-- R31: the entries above the lowest `k` are positions of `[`s of the loaded program below `pc`, strictly
increasing from bottom to top. -/
def State.NewEntriesOrdered (k : Nat) (s : State) : Prop :=
  (s.stack.drop k).Pairwise (· < ·) ∧
    ∀ e ∈ s.stack.drop k, e < s.pc ∧ s.prog[e]? = some Config.codes.openLoop

/-- R25: nothing from an earlier program is on the stack, and `0 ≤ pc ≤ len(prog)`. -/
def State.PcWithinProgram (s : State) : Prop :=
  s.pc ≤ s.prog.length ∧ ∀ e ∈ s.stack, e < s.prog.length

/-- `n` executions of one instruction, one after the other; `none` once one does not complete. -/
def execRepeat (i : Instr) : Nat → State → Option State
  | 0, s => some s
  | n + 1, s =>
    match exec i s with
    | .next t => execRepeat i n t
    | .fault _ => none
    | .refused _ => none

/-- `n` STEPs in a row, each returning true, lead from `s` to `t` (R104). -/
def StepsReturnTrue : Nat → State → State → Prop
  | 0, s, t => t = s
  | n + 1, s, t => ∃ u, s.stepCommand = (.bool true, u) ∧ StepsReturnTrue n u t

/-- An outcome with its next state, if there is one, changed by `f`. -/
def mapNext (f : State → State) : Result → Result
  | .next t => .next (f t)
  | .fault r => .fault r
  | .refused r => .refused r

end Sys2Proof.Machine
end

