-- ==== Sys2Proof/Certificates/Slice0/Obligations.lean ====
section
/-! DEFINITION. The statements for the provers, each a proposition over the whole model. A result statement gives
the whole next state as a record update of the state before, so it is the instruction's frame as well: a field
it does not name is unchanged, and memory is said cell by cell. -/

open Sys2Proof Sys2Proof.Machine

/-! ### Encoding -/

/-- R62, R64: each of the eight codes decodes to its operation, and every other character to Skip. -/
def Obligations.DecodeFollowsCodeTable : Prop :=
  decode 0x3C#21 = .moveLeft ∧ decode 0x3E#21 = .moveRight ∧ decode 0x2B#21 = .increment ∧
  decode 0x2D#21 = .decrement ∧ decode 0x2E#21 = .consolePrint ∧ decode 0x2C#21 = .consoleRead ∧
  decode 0x5B#21 = .openLoop ∧ decode 0x5D#21 = .closeLoop ∧
  ∀ ch : Character,
    ch ∉ [0x3C#21, 0x3E#21, 0x2B#21, 0x2D#21, 0x2E#21, 0x2C#21, 0x5B#21, 0x5D#21] →
      decode ch = .skip ch

/-- Words written out from the encodings of R62 and 95_test_vectors: the opcode table's eight-bit words, some
Skip characters, and R63's whole-value rule on characters above 0xFF. -/
def Obligations.SpecWordsDecode : Prop :=
  [0b00111100, 0b00111110, 0b00101011, 0b00101101, 0b00101110, 0b00101100, 0b01011011,
      0b01011101].map (decodeTableWord 8) =
    [some .moveLeft, some .moveRight, some .increment, some .decrement, some .consolePrint,
      some .consoleRead, some .openLoop, some .closeLoop] ∧
  [0x61, 0x00, 0x20, 0x3D].map (decodeTableWord 8) =
    [some (.skip 0x61#21), some (.skip 0x00#21), some (.skip 0x20#21), some (.skip 0x3D#21)] ∧
  decode 0x15B#21 = .skip 0x15B#21 ∧ decode 0x1002B#21 = .skip 0x1002B#21

/-- For every well-formed instruction, decoding its encoding gives it back. -/
def Obligations.DecodeOfEncode : Prop :=
  ∀ (w : CharBits) (i : Instr), WellFormed w i = true → decode (encode i) = i

/-- For every character, encoding its decoding gives it back, and what a legal character decodes to is well
formed. -/
def Obligations.EncodeOfDecode : Prop :=
  ∀ ch : Character, encode (decode ch) = ch ∧
    ∀ w : CharBits, Character.legal w ch = true → WellFormed w (decode ch) = true

/-! ### The step -/

/-- R66, R67: a Running engine fetches the character at `pc`, decodes it, and its step is `exec` of what it
decodes to; for the character of a well-formed instruction, of that instruction. -/
def Obligations.StepRunsDecodedInstruction : Prop :=
  (∀ (s : State) (ch : Character), s.sticky.so = false → s.prog[s.pc]? = some ch →
    step s = exec (decode ch) s) ∧
  ∀ (s : State) (w : CharBits) (i : Instr), s.sticky.so = false → WellFormed w i = true →
    s.prog[s.pc]? = some (encode i) → step s = exec i s

/-- R65, R105: a STEP of a Faulted or Halted engine returns false and changes nothing, a RUN returns at once and
changes nothing, and so does every repetition. -/
def Obligations.StoppedEngineChangesNothing : Prop :=
  ∀ s : State, s.sticky.so = true ∨ s.prog.length ≤ s.pc →
    step s = .next s ∧ s.command .step = (.bool false, s) ∧
      ∀ fuel, s.command (.run (fuel + 1)) = (.done, s)

/-- R70: a STEP that executed an instruction without a fault returns true, also when the advance reached the
end of the program; then the next STEP returns false and changes nothing. -/
def Obligations.ExecutedStepReturnsTrue : Prop :=
  ∀ s t : State, s.sticky.so = false → s.pc < s.prog.length → step s = .next t →
    t.sticky.so = false →
    s.command .step = (.bool true, t) ∧
      (t.prog.length ≤ t.pc → t.command .step = (.bool false, t))

/-! ### The tape operations: results, frames and completion -/

/-- R79: `<` moves the cursor left, modulo `TAPE_LEN`, and changes nothing else but `pc`. -/
def Obligations.MoveLeftMovesCursor : Prop :=
  ∀ s : State,
    exec .moveLeft s =
      .next { s with
        cursor := if 0 < s.cursor then s.cursor - 1 else s.tapeLen - 1, pc := s.pc + 1 } ∧
    (s.cursor < s.tapeLen →
      ∃ t, exec .moveLeft s = .next t ∧ t.cursor < t.tapeLen ∧
        (t.cursor : Int) = ((s.cursor : Int) - 1) % (s.tapeLen : Int))

/-- R80: `>` moves the cursor right, modulo `TAPE_LEN`, and changes nothing else but `pc`; `k` of them from
cursor 0 give `k mod TAPE_LEN`. -/
def Obligations.MoveRightMovesCursor : Prop :=
  (∀ s : State,
    exec .moveRight s =
      .next { s with
        cursor := if s.cursor < s.tapeLen - 1 then s.cursor + 1 else 0, pc := s.pc + 1 }) ∧
  (∀ s : State, s.cursor < s.tapeLen →
    exec .moveRight s =
      .next { s with cursor := (s.cursor + 1) % s.tapeLen, pc := s.pc + 1 }) ∧
  ∀ (s : State) (k : Nat), 0 < s.tapeLen → s.cursor = 0 →
    execRepeat .moveRight k s = some { s with cursor := k % s.tapeLen, pc := s.pc + k }

/-- R81: `+` adds 1 modulo 256 to the current cell; every other cell and all else but `pc` stay; `n` of them
from a zero cell give `n mod 256`. -/
def Obligations.IncrementAddsOne : Prop :=
  (∀ s : State, s.cursor < s.tapeLen →
    ∃ t, exec .increment s = .next t ∧ t = { s with tape := t.tape, pc := s.pc + 1 } ∧
      (t.tape.read s.cursor).toNat = ((s.tape.read s.cursor).toNat + 1) % 256 ∧
      ∀ a, a ≠ s.cursor → t.tape.read a = s.tape.read a) ∧
  ∀ (s : State) (n : Nat), s.cursor < s.tapeLen → s.tape.read s.cursor = 0#8 →
    ∃ t, execRepeat .increment n s = some t ∧ (t.tape.read s.cursor).toNat = n % 256

/-- R82: `-` subtracts 1 modulo 256 from the current cell; every other cell and all else but `pc` stay; `n` of
them from a zero cell give `(256 - n) mod 256`. -/
def Obligations.DecrementSubtractsOne : Prop :=
  (∀ s : State, s.cursor < s.tapeLen →
    ∃ t, exec .decrement s = .next t ∧ t = { s with tape := t.tape, pc := s.pc + 1 } ∧
      ((t.tape.read s.cursor).toNat : Int) = (((s.tape.read s.cursor).toNat : Int) - 1) % 256 ∧
      ∀ a, a ≠ s.cursor → t.tape.read a = s.tape.read a) ∧
  ∀ (s : State) (n : Nat), s.cursor < s.tapeLen → s.tape.read s.cursor = 0#8 →
    ∃ t, execRepeat .decrement n s = some t ∧
      ((t.tape.read s.cursor).toNat : Int) = (256 - (n : Int)) % 256

/-! ### The channel operations -/

/-- R83: `.` delivers the current cell's value, as one event at the end of the output, and changes nothing else
but `pc`. -/
def Obligations.ConsolePrintEmitsCell : Prop :=
  ∀ s : State, s.cursor < s.tapeLen →
    ∃ t, exec .consolePrint s = .next t ∧
      t = { s with events := s.events ++ [.emitted (s.tape.read s.cursor)], pc := s.pc + 1 } ∧
      t.outputs = s.outputs ++ [s.tape.read s.cursor]

/-- R84: with `READ_IMPL = Input`, `,` stores the value the input channel supplies in the current cell, whatever
stood there; every other cell, the cursor and the stack stay. -/
def Obligations.ConsoleReadStoresReceived : Prop :=
  ∀ (s r : State) (v : Byte), s.params.readImpl = .input → s.cursor < s.tapeLen →
    s.receive = some (v, r) →
    ∃ t, exec .consoleRead s = .next t ∧
      t = { s with
        tape := t.tape, pc := s.pc + 1, input := r.input,
        events := s.events ++ [.received v] } ∧
      t.tape.read s.cursor = v ∧ ∀ a, a ≠ s.cursor → t.tape.read a = s.tape.read a

/-- The model's choice (log 8, log 9): what the input channel supplies. A value the host has put in the queue,
oldest first; from an empty queue, with an answering host, the next free value, which may be any. -/
def Obligations.ReceiveTakesHostsValue : Prop :=
  (∀ (s : State) (v : Byte) (rest : List Byte), s.input.queue = v :: rest →
    ∃ r, s.receive = some (v, r) ∧ r.input = { s.input with queue := rest }) ∧
  (∀ s : State, s.input.queue = [] → s.input.answering = true →
    ∃ r, s.receive = some (Config.inputValue s.input.draws, r) ∧
      r.input = { s.input with draws := s.input.draws + 1 })

/-- R85 in the model's form (log 8, log 11): while the host supplies no value the step of `,` is stuck, and once
the host supplies one the same step completes with that value in the current cell. -/
def Obligations.ConsoleReadWaitsForHost : Prop :=
  ∀ s : State, s.params.readImpl = .input → s.cursor < s.tapeLen → s.input.queue = [] →
    s.input.answering = false →
    exec .consoleRead s = .fault .inputWait ∧
      ∀ v : Byte, ∃ t, exec .consoleRead (s.supplyInput v) = .next t ∧
        t.tape.read s.cursor = v ∧ t.input = s.input ∧ t.pc = s.pc + 1

/-- R86, R121: with `READ_IMPL = Unsupported`, `,` sets `STATUS.RU`, advances `pc`, and changes nothing else; its
STEP returns true. -/
def Obligations.ConsoleReadUnsupportedReports : Prop :=
  ∀ s : State, s.params.readImpl = .unsupported →
    exec .consoleRead s =
      .next { s with sticky := { s.sticky with ru := true }, pc := s.pc + 1 } ∧
    (s.sticky.so = false → s.prog[s.pc]? = some Config.codes.consoleRead →
      s.command .step =
        (.bool true, { s with sticky := { s.sticky with ru := true }, pc := s.pc + 1 }))

/-! ### The loop operations -/

/-- R88: every case of `[`, with its whole next state. -/
def Obligations.OpenLoopFollowsRule : Prop :=
  ∀ s : State, s.cursor < s.tapeLen →
    (s.tape.read s.cursor ≠ 0#8 → s.params.stackDepth ≠ some s.stack.length →
      exec .openLoop s = .next { s with stack := s.stack ++ [s.pc], pc := s.pc + 1 }) ∧
    (s.tape.read s.cursor ≠ 0#8 → s.params.stackDepth = some s.stack.length →
      exec .openLoop s = .next { s with sticky := { s.sticky with so := true } }) ∧
    (∀ m, s.tape.read s.cursor = 0#8 → scanForward s.prog s.pc = .found m →
      exec .openLoop s = .next { s with pc := m + 1 }) ∧
    (s.tape.read s.cursor = 0#8 → scanForward s.prog s.pc = .notFound →
      s.params.unmatchedOpenMode = .continues →
      exec .openLoop s =
        .next { s with sticky := { s.sticky with uo := true }, pc := s.pc + 1 }) ∧
    (s.tape.read s.cursor = 0#8 → scanForward s.prog s.pc = .notFound →
      s.params.unmatchedOpenMode = .skipToEnd →
      exec .openLoop s =
        .next { s with
          sticky := { s.sticky with uo := true }, pc := s.prog.length - 1 + 1 })

/-- R89, R94: every case of `]`, with its whole next state. -/
def Obligations.CloseLoopFollowsRule : Prop :=
  ∀ s : State, s.cursor < s.tapeLen →
    (∀ (l : List Nat) (p : Nat), s.tape.read s.cursor ≠ 0#8 → s.stack = l ++ [p] →
      exec .closeLoop s = .next { s with pc := p + 1 }) ∧
    (s.tape.read s.cursor ≠ 0#8 → s.stack = [] →
      exec .closeLoop s =
        .next { s with sticky := { s.sticky with uc := true }, pc := s.pc + 1 }) ∧
    (∀ (l : List Nat) (p : Nat), s.tape.read s.cursor = 0#8 → s.stack = l ++ [p] →
      exec .closeLoop s = .next { s with stack := l, pc := s.pc + 1 }) ∧
    (s.tape.read s.cursor = 0#8 → s.stack = [] →
      exec .closeLoop s = .next { s with pc := s.pc + 1 })

/-- R92, R118: a STEP of an unmatched `[` with a zero cell sets `STATUS.UO` and returns true, tape and stack
unchanged: with `Continue` execution goes on at the next character, with `SkipToEnd` the engine halts on the
next STEP. -/
def Obligations.UnmatchedOpenLoopReported : Prop :=
  ∀ s : State, s.cursor < s.tapeLen → s.sticky.so = false →
    s.prog[s.pc]? = some Config.codes.openLoop → s.tape.read s.cursor = 0#8 →
    scanForward s.prog s.pc = .notFound →
    (s.params.unmatchedOpenMode = .continues →
      s.command .step =
        (.bool true, { s with sticky := { s.sticky with uo := true }, pc := s.pc + 1 })) ∧
    (s.params.unmatchedOpenMode = .skipToEnd →
      ∃ t : State, t = { s with sticky := { s.sticky with uo := true }, pc := s.prog.length } ∧
        s.command .step = (.bool true, t) ∧ t.command .step = (.bool false, t))

/-- R93, R119: a STEP of a `]` with a nonzero cell on an empty stack sets `STATUS.UC`, returns true and goes on
at the next character; with a zero cell it reports nothing. -/
def Obligations.UnmatchedCloseLoopReported : Prop :=
  ∀ s : State, s.cursor < s.tapeLen → s.sticky.so = false →
    s.prog[s.pc]? = some Config.codes.closeLoop → s.stack = [] →
    (s.tape.read s.cursor ≠ 0#8 →
      s.command .step =
        (.bool true, { s with sticky := { s.sticky with uc := true }, pc := s.pc + 1 })) ∧
    (s.tape.read s.cursor = 0#8 → s.command .step = (.bool true, { s with pc := s.pc + 1 }))

/-- R95: a `]` with a nonzero cell jumps to the stack's top, whatever the text says of it, and resumes one after
it; if that is at or past the end of the program, the engine is then Halted. -/
def Obligations.CloseLoopJumpsToTop : Prop :=
  ∀ (s : State) (l : List Nat) (p : Nat), s.cursor < s.tapeLen → s.sticky.so = false →
    s.prog[s.pc]? = some Config.codes.closeLoop → s.tape.read s.cursor ≠ 0#8 →
    s.stack = l ++ [p] →
    s.command .step = (.bool true, { s with pc := p + 1 }) ∧
      (s.prog.length ≤ p + 1 → State.engineState { s with pc := p + 1 } = .halted)

/-- R120: a STEP of `[` with a nonzero cell on a full stack sets `STATUS.SO` and changes nothing else; STEP
returns false and the engine is Faulted; every later STEP returns false and changes nothing. With an unbounded
stack no step ever raises it. -/
def Obligations.StackOverflowFaultsEngine : Prop :=
  (∀ s : State, s.cursor < s.tapeLen → s.sticky.so = false →
    s.prog[s.pc]? = some Config.codes.openLoop → s.tape.read s.cursor ≠ 0#8 →
    s.params.stackDepth = some s.stack.length →
    ∃ t : State, t = { s with sticky := { s.sticky with so := true } } ∧
      s.command .step = (.bool false, t) ∧ t.engineState = .faulted ∧
      t.command .step = (.bool false, t)) ∧
  ∀ s t : State, s.params.stackDepth = none → step s = .next t → t.sticky.so = s.sticky.so

/-! ### Skip -/

/-- R98: every other character only advances `pc`: decoded, it is Skip of itself, and the step changes nothing
else and returns true. -/
def Obligations.SkipOnlyAdvances : Prop :=
  (∀ (ch : Character) (s : State), exec (.skip ch) s = .next { s with pc := s.pc + 1 }) ∧
  ∀ (s : State) (ch : Character), s.sticky.so = false → s.prog[s.pc]? = some ch →
    Character.isOperation ch = false →
    s.command .step = (.bool true, { s with pc := s.pc + 1 })

/-! ### The bracket matcher -/

/-- From a `[`, the scan finds `m` exactly when `m` is the syntactic partner: R91 states that what it finds is the
partner, and the converse is derived from R87 (the scan) by the definition of a partner in R91. A `[` with a zero
cell and partner `m` ends with `pc = m + 1` (R88). -/
def Obligations.ScanFindsSyntacticPartner : Prop :=
  (∀ (prog : List Character) (p m : Nat), prog[p]? = some Config.codes.openLoop →
    (scanForward prog p = .found m ↔ IsMatch prog p m)) ∧
  ∀ (s : State) (m : Nat), s.cursor < s.tapeLen → s.prog[s.pc]? = some Config.codes.openLoop →
    s.tape.read s.cursor = 0#8 → IsMatch s.prog s.pc m →
    exec .openLoop s = .next { s with pc := m + 1 }

/-- R97: the scan machine, started from IDLE on `p`, is back in IDLE after at most `len(prog) - p + 1`
transitions with the result of `ScanForward(p)`, and stays there. -/
def Obligations.ScanMachineComputesScanForward : Prop :=
  ∀ (prog : List Character) (p n : Nat), prog.length - p + 1 ≤ n →
    ScanMachine.run prog n (ScanMachine.start p) =
      { state := .idle, result := some (scanForward prog p) }

/-- R90: while a scan from a `[` goes on, its depth is at least 1 after the first character, and at most the
number of `[` from there to the end, which is at most `len(prog) - p`. -/
def Obligations.ScanDepthIsBounded : Prop :=
  ∀ (prog : List Character) (p n i d : Nat), prog[p]? = some Config.codes.openLoop → 0 < n →
    (ScanMachine.run prog n (ScanMachine.start p)).state = .scan i d →
    1 ≤ d ∧ d ≤ (prog.drop p).count Config.codes.openLoop ∧
      (prog.drop p).count Config.codes.openLoop ≤ prog.length - p

/-! ### STATUS and the events -/

/-- R35: the bits of `STATUS`. -/
def Obligations.StatusHasItsBits : Prop :=
  ∀ s : State,
    (s.status.getLsbD 0 = true ↔ s.prog.length ≤ s.pc ∨ s.engineState = .faulted) ∧
    s.status.getLsbD 1 = s.sticky.uo ∧ s.status.getLsbD 2 = s.sticky.uc ∧
    s.status.getLsbD 3 = s.sticky.ru ∧ s.status.getLsbD 4 = s.sticky.so ∧
    s.status.getLsbD 5 = false ∧ s.status.getLsbD 6 = false ∧ s.status.getLsbD 7 = false ∧
    State.reset.status = 0x01#8

/-- R117: an event's code, 1 to 4, is the index of the one `STATUS` bit that raising it sets; apart from the
computed `HALT`, every other bit and every other part of the state stays. -/
def Obligations.RaiseSetsItsStatusBit : Prop :=
  (Cause.uo.code = 1 ∧ Cause.uc.code = 2 ∧ Cause.ru.code = 3 ∧ Cause.so.code = 4) ∧
  ∀ (s : State) (c : Cause),
    (s.raise c).status.getLsbD c.code = true ∧
    (∀ k, k ≠ 0 → k ≠ c.code → (s.raise c).status.getLsbD k = s.status.getLsbD k) ∧
    s.raise c = { s with sticky := (s.raise c).sticky }

/-- R37: a sticky bit is set only by its event, and nothing but CONSTRUCT clears one. -/
def Obligations.StickyBitsOnlySetByEvents : Prop :=
  (∀ s t : State, step s = .next t →
    (t.sticky.uo = true → s.sticky.uo = true ∨
      (s.prog[s.pc]? = some Config.codes.openLoop ∧ s.tape.read s.cursor = 0#8 ∧
        scanForward s.prog s.pc = .notFound)) ∧
    (t.sticky.uc = true → s.sticky.uc = true ∨
      (s.prog[s.pc]? = some Config.codes.closeLoop ∧ s.tape.read s.cursor ≠ 0#8 ∧
        s.stack = [])) ∧
    (t.sticky.ru = true → s.sticky.ru = true ∨
      (s.prog[s.pc]? = some Config.codes.consoleRead ∧ s.params.readImpl = .unsupported)) ∧
    (t.sticky.so = true → s.sticky.so = true ∨
      (s.prog[s.pc]? = some Config.codes.openLoop ∧ s.tape.read s.cursor ≠ 0#8 ∧
        s.params.stackDepth = some s.stack.length))) ∧
  (∀ (s : State) (c : Command), (∀ n, c ≠ .construct n) →
    (s.sticky.uo = true → (s.command c).2.sticky.uo = true) ∧
    (s.sticky.uc = true → (s.command c).2.sticky.uc = true) ∧
    (s.sticky.ru = true → (s.command c).2.sticky.ru = true) ∧
    (s.sticky.so = true → (s.command c).2.sticky.so = true)) ∧
  ∀ (s : State) (n : Nat), n ≠ 0 →
    (s.command (.construct n)).2.sticky = { uo := false, uc := false, ru := false, so := false }

/-- R41: a step reaches Faulted only by a push onto a full stack of finite depth, LOAD does not reach it, and no
command but CONSTRUCT leaves it. -/
def Obligations.FaultedOnlyByFullStack : Prop :=
  (∀ s t : State, step s = .next t → s.engineState ≠ .faulted → t.engineState = .faulted →
    ∃ d, s.params.stackDepth = some d ∧ s.stack.length = d ∧
      s.prog[s.pc]? = some Config.codes.openLoop ∧ s.tape.read s.cursor ≠ 0#8 ∧
      t = { s with sticky := { s.sticky with so := true } }) ∧
  (∀ (s : State) (c : Command), (∀ n, c ≠ .construct n) → s.engineState = .faulted →
    (s.command c).2.engineState = .faulted) ∧
  (∀ (s : State) (src : List Character), (s.command (.load src)).2.sticky = s.sticky) ∧
  ∀ (s : State) (n : Nat), n ≠ 0 → (s.command (.construct n)).2.engineState ≠ .faulted

/-- R124: an instruction raises at most one event: `[` UO only on a zero cell and SO only on a nonzero one, `]`
only UC, `,` only RU, and the others nothing. -/
def Obligations.AtMostOneEventPerInstruction : Prop :=
  ∀ (i : Instr) (s t : State), exec i s = .next t →
    t.sticky = s.sticky ∨
    (i = .openLoop ∧ s.tape.read s.cursor = 0#8 ∧ t.sticky = { s.sticky with uo := true }) ∨
    (i = .openLoop ∧ s.tape.read s.cursor ≠ 0#8 ∧ t.sticky = { s.sticky with so := true }) ∨
    (i = .closeLoop ∧ t.sticky = { s.sticky with uc := true }) ∨
    (i = .consoleRead ∧ t.sticky = { s.sticky with ru := true })

/-- R36 as far as the other rules leave it true (log 14). `HALT` is 0 exactly when the engine is Running. Of the next
STEP: while `HALT` reads 1 it returns false and changes nothing; while it reads 0, one that completes returns true
unless it raises StackOverflow. Of the STEP before: one that returned false leaves `HALT` 1; one that returned true
leaves `HALT` 1 exactly when its advance reached the end of the program. Both exceptions occur: some STEP returns
true and leaves `HALT` 1 (R70), and some STEP from `HALT` 0 returns false (R68, R120). -/
def Obligations.HaltBitForetellsStep : Prop :=
  (∀ s : State, s.haltBit = false ↔ s.engineState = .running) ∧
  (∀ s : State, s.haltBit = true → s.command .step = (.bool false, s)) ∧
  (∀ s t : State, s.haltBit = false → step s = .next t →
    s.command .step = (.bool (!t.sticky.so), t)) ∧
  (∀ s t : State, s.command .step = (.bool false, t) → t.haltBit = true) ∧
  (∀ s t : State, s.command .step = (.bool true, t) →
    (t.haltBit = true ↔ t.prog.length ≤ t.pc)) ∧
  (∃ s t : State, s.command .step = (.bool true, t) ∧ t.haltBit = true) ∧
  ∃ s t : State, s.haltBit = false ∧ s.command .step = (.bool false, t)

/-- R38: no instruction reads `STATUS`: with other sticky bits an instruction does the same, sticky bits
apart. -/
def Obligations.NoInstructionReadsStatus : Prop :=
  ∀ (i : Instr) (s : State) (b z : StickyBits),
    mapNext (fun t => t.withSticky z) (exec i (s.withSticky b)) =
      mapNext (fun t => t.withSticky z) (exec i s)

/-! ### Memory -/

/-- The tape memory: a read gives what was last written to that cell, a write leaves every other cell alone and
keeps the canonical form. -/
def Obligations.TapeReadsBackWrites : Prop :=
  ∀ (m : Memory) (a : Nat) (v : Byte),
    (m.write a v).read a = v ∧ (∀ b, b ≠ a → (m.write a v).read b = m.read b) ∧
      (Memory.wf m → Memory.wf (m.write a v))

/-- R44: an instruction reaches the tape only at the cell the cursor names. On two tapes that agree there it
does the same, tape apart; afterwards each tape differs from what it was at that cell only, and there both hold
the same value. -/
def Obligations.OnlyCurrentCellIsReached : Prop :=
  ∀ (i : Instr) (s : State) (m : Memory), m.read s.cursor = s.tape.read s.cursor →
    mapNext (fun t => t.withTape []) (exec i (s.withTape m)) =
      mapNext (fun t => t.withTape []) (exec i s) ∧
    ∀ t u : State, exec i s = .next t → exec i (s.withTape m) = .next u →
      u.tape.read s.cursor = t.tape.read s.cursor ∧
        ∀ a, a ≠ s.cursor → t.tape.read a = s.tape.read a ∧ u.tape.read a = m.read a

/-- R52, R56: a step records no channel access, or exactly one at the end: `.` the current cell's value, `,` the
value it stores. -/
def Obligations.ChannelEventsInStepOrder : Prop :=
  ∀ s t : State, step s = .next t →
    t.events = s.events ∨
    (s.prog[s.pc]? = some Config.codes.consolePrint ∧
      t.events = s.events ++ [.emitted (s.tape.read s.cursor)]) ∨
    (s.prog[s.pc]? = some Config.codes.consoleRead ∧
      ∃ v, t.events = s.events ++ [.received v] ∧ t.tape.read s.cursor = v)

/-! ### Invariants -/

/-- The invariant holds at reset, and after CONSTRUCT at every legal value of the parameters. -/
def Obligations.InvariantAtReset : Prop :=
  State.reset.Inv ∧
  ∀ (p : Params) (n : Nat), 0 < n → p.stackDepth ≠ some 0 → (State.constructed p n).Inv

/-- Every step keeps the ranges and bounds of the state: the cursor within the tape, the tape's canonical form,
`pc`, program and stack within `PROG_MAX` and `STACK_DEPTH`, Faulted only with a full stack. -/
def Obligations.StepKeepsInvariant : Prop :=
  ∀ s t : State, s.Inv → step s = .next t → t.Inv

/-- Every command of the host keeps the invariant; a LOAD gives characters of `CHAR_BITS` (log 16). For a refused
CONSTRUCT(0) this is about the model's choice of the state after it (DESIGN CHOICE, log 18). -/
def Obligations.CommandsKeepInvariant : Prop :=
  ∀ (s : State) (c : Command), s.Inv →
    (∀ src, c = .load src → ∀ ch ∈ src, Character.legal s.params.charBits ch = true) →
    (s.command c).2.Inv

/-- R127, R85: from a state within the ranges, a step always ends in a next state, unless it is a `,` the host
supplies no value to, which waits: a stuck step (log 11). -/
def Obligations.StepCompletesOrWaits : Prop :=
  ∀ s : State, s.Inv →
    (∃ t, step s = .next t) ∨
    (step s = .fault .inputWait ∧ s.engineState = .running ∧
      s.prog[s.pc]? = some Config.codes.consoleRead ∧ s.params.readImpl = .input ∧
      s.input.queue = [] ∧ s.input.answering = false)

/-- R22, R26: only CONSTRUCT sets the tape length, and only LOAD and CONSTRUCT replace the program; a step
changes neither. -/
def Obligations.ConfigurationAndProgramFixed : Prop :=
  (∀ s t : State, step s = .next t →
    t.tapeLen = s.tapeLen ∧ t.params = s.params ∧ t.prog = s.prog) ∧
  (∀ (s : State) (c : Command), (∀ n, c ≠ .construct n) →
    (s.command c).2.tapeLen = s.tapeLen ∧ (s.command c).2.params = s.params) ∧
  ∀ (s : State) (c : Command), (∀ n, c ≠ .construct n) → (∀ src, c ≠ .load src) →
    (s.command c).2.prog = s.prog

/-- R29: only `[` pushes, and it pushes `pc`; only `]` pops; nothing else changes the loop-start stack. -/
def Obligations.OnlyBracketsChangeStack : Prop :=
  ∀ (i : Instr) (s t : State), exec i s = .next t →
    t.stack = s.stack ∨
    (i = .openLoop ∧ s.tape.read s.cursor ≠ 0#8 ∧ t.stack = s.stack ++ [s.pc]) ∨
    (i = .closeLoop ∧ s.tape.read s.cursor = 0#8 ∧ ∃ p, s.stack = t.stack ++ [p])

/-- R25: with nothing from an earlier program on the stack, `0 ≤ pc ≤ len(prog)` holds after every step; a LOAD
on an empty stack establishes it. -/
def Obligations.PcStaysWithinProgram : Prop :=
  (∀ s t : State, s.PcWithinProgram → step s = .next t → t.PcWithinProgram) ∧
  ∀ (s t : State) (src : List Character), s.stack = [] → s.load src = some t →
    t.PcWithinProgram

/-- R31: the entries pushed since a LOAD stay above the older ones, are positions of `[`s, and strictly increase
from bottom to top; of the `k` older ones a step leaves the lowest unchanged. A LOAD makes every entry older. -/
def Obligations.NewEntriesStayOrdered : Prop :=
  (∀ (k : Nat) (s t : State), k ≤ s.stack.length → s.NewEntriesOrdered k → step s = .next t →
    t.NewEntriesOrdered (min k t.stack.length) ∧
      t.stack.take (min k t.stack.length) = s.stack.take (min k t.stack.length)) ∧
  ∀ (s t : State) (src : List Character), s.load src = some t →
    t.NewEntriesOrdered t.stack.length

/-- R31: the entries pushed since the last LOAD are at most as many as the program has `[`. -/
def Obligations.NewEntriesBoundedByOpens : Prop :=
  ∀ (k : Nat) (s : State), s.NewEntriesOrdered k →
    (s.stack.drop k).length ≤ s.prog.count Config.codes.openLoop

/-- R142: with no older entries, a stack at least as deep as the program has `[` never overflows. -/
def Obligations.DeepEnoughStackNeverFaults : Prop :=
  ∀ (s t : State) (d : Nat), s.NewEntriesOrdered 0 → s.params.stackDepth = some d →
    s.prog.count Config.codes.openLoop ≤ d → step s = .next t → s.sticky.so = false →
    t.sticky.so = false

/-- R96 (c), (d), (e): for a balanced program whose LOAD found the stack empty, every step keeps the stack equal
to the enclosing open loops, innermost on top, and raises neither structural error; at the end of the program
the stack is empty. -/
def Obligations.WellFormedProgramStack : Prop :=
  (∀ s t : State, Balanced s.prog → s.StackEncloses → step s = .next t →
    t.StackEncloses ∧ t.sticky.uo = s.sticky.uo ∧ t.sticky.uc = s.sticky.uc) ∧
  (∀ s : State, Balanced s.prog → s.StackEncloses → s.prog.length ≤ s.pc → s.stack = []) ∧
  ∀ (s t : State) (src : List Character), s.stack = [] → s.load src = some t → t.StackEncloses

/-- R96 (a), (b): there, the skip of a `[` finds its syntactic partner, and at a `]` the stack is not empty and
its top is the `]`'s syntactic partner. -/
def Obligations.WellFormedBracketsMatch : Prop :=
  ∀ s : State, Balanced s.prog → s.StackEncloses →
    (s.prog[s.pc]? = some Config.codes.openLoop →
      ∃ m, scanForward s.prog s.pc = .found m ∧ IsMatch s.prog s.pc m) ∧
    (s.prog[s.pc]? = some Config.codes.closeLoop →
      ∃ p, s.top = some p ∧ s.prog[p]? = some Config.codes.openLoop ∧ IsMatch s.prog p s.pc)

/-! ### The host's commands -/

/-- R100, R134: CONSTRUCT sets every piece of state to its reset value, with `HALT` reading 1; the engine is
Halted, its STEP returns false, and a LOAD of a non-empty program that fits makes it Running; 0 is refused. -/
def Obligations.ConstructResetsEverything : Prop :=
  (∀ (s : State) (n : Nat), n ≠ 0 →
    ∃ t, s.command (.construct n) = (.done, t) ∧ t.tapeLen = n ∧ (∀ a, t.tape.read a = 0#8) ∧
      t.cursor = 0 ∧ t.prog = [] ∧ t.pc = 0 ∧ t.stack = [] ∧ t.status = 0x01#8 ∧
      t.engineState = .halted ∧ t.command .step = (.bool false, t) ∧
      ∀ (src : List Character) (u : State), src ≠ [] → t.load src = some u →
        u.engineState = .running) ∧
  ∀ s : State, (s.command (.construct 0)).1 = .refused

/-- R101, R102: LOAD of a source within `PROG_MAX` sets program and `pc` and nothing else; a longer one is
refused and changes nothing; with `PROG_MAX` unbounded none is refused. -/
def Obligations.LoadReplacesProgramOnly : Prop :=
  ∀ (s : State) (src : List Character),
    ((∀ k, s.params.progMax = some k → src.length ≤ k) →
      s.command (.load src) = (.ok, { s with prog := src, pc := 0 })) ∧
    (∀ k, s.params.progMax = some k → k < src.length → s.command (.load src) = (.refused, s))

/-- R106, R107: INSPECT returns the cell, cursor, `pc`, source and memory size, refuses a cell index at or past
`TAPE_LEN`; R108: it returns `STATUS`, with `HALT` as the engine state test, and changes no state. -/
def Obligations.InspectReadsWithoutEffect : Prop :=
  ∀ s : State,
    (∀ i, i < s.tapeLen → s.command (.inspect (.tape i)) = (.value (.cell (s.tape.read i)), s)) ∧
    (∀ i, s.tapeLen ≤ i → s.command (.inspect (.tape i)) = (.refused, s)) ∧
    s.command (.inspect .cursor) = (.value (.number s.cursor), s) ∧
    s.command (.inspect .pc) = (.value (.number s.pc), s) ∧
    s.command (.inspect .source) = (.value (.source s.prog.length s.prog), s) ∧
    s.command (.inspect .memorySize) = (.value (.number s.tapeLen), s) ∧
    s.command (.inspect .status) = (.value (.statusBits s.status), s) ∧
    (s.status.getLsbD 0 = true ↔ s.engineState ≠ .running)

/-- R104: RUN repeats STEP until one returns false: if `m` STEPs return true and the next returns false, RUN
with a budget above `m` returns with the state after it; with a budget of `m` it has not returned. -/
def Obligations.RunRepeatsStep : Prop :=
  ∀ (m : Nat) (s t u : State), StepsReturnTrue m s t →
    (t.stepCommand = (.bool false, u) →
      ∀ fuel, m < fuel → s.command (.run fuel) = (.done, u)) ∧
    s.command (.run m) = (.unfinished, t)
end

