-- ==== Sys2Proof/Laws/State.lean ====
section
/-! SUPPORT. One lemma per field per update of the state, each true by `rfl`, so that no later proof unfolds a
record update. -/

namespace Sys2Proof.Machine

/-! ### withTape -/

@[simp] theorem State.withTape_params (s : State) (m : Memory) : (s.withTape m).params = s.params := rfl
@[simp] theorem State.withTape_tapeLen (s : State) (m : Memory) : (s.withTape m).tapeLen = s.tapeLen := rfl
@[simp] theorem State.withTape_tape (s : State) (m : Memory) : (s.withTape m).tape = m := rfl
@[simp] theorem State.withTape_cursor (s : State) (m : Memory) : (s.withTape m).cursor = s.cursor := rfl
@[simp] theorem State.withTape_prog (s : State) (m : Memory) : (s.withTape m).prog = s.prog := rfl
@[simp] theorem State.withTape_pc (s : State) (m : Memory) : (s.withTape m).pc = s.pc := rfl
@[simp] theorem State.withTape_stack (s : State) (m : Memory) : (s.withTape m).stack = s.stack := rfl
@[simp] theorem State.withTape_sticky (s : State) (m : Memory) : (s.withTape m).sticky = s.sticky := rfl
@[simp] theorem State.withTape_input (s : State) (m : Memory) : (s.withTape m).input = s.input := rfl
@[simp] theorem State.withTape_events (s : State) (m : Memory) : (s.withTape m).events = s.events := rfl

/-! ### withCursor -/

@[simp] theorem State.withCursor_params (s : State) (n : Nat) : (s.withCursor n).params = s.params := rfl
@[simp] theorem State.withCursor_tapeLen (s : State) (n : Nat) : (s.withCursor n).tapeLen = s.tapeLen := rfl
@[simp] theorem State.withCursor_tape (s : State) (n : Nat) : (s.withCursor n).tape = s.tape := rfl
@[simp] theorem State.withCursor_cursor (s : State) (n : Nat) : (s.withCursor n).cursor = n := rfl
@[simp] theorem State.withCursor_prog (s : State) (n : Nat) : (s.withCursor n).prog = s.prog := rfl
@[simp] theorem State.withCursor_pc (s : State) (n : Nat) : (s.withCursor n).pc = s.pc := rfl
@[simp] theorem State.withCursor_stack (s : State) (n : Nat) : (s.withCursor n).stack = s.stack := rfl
@[simp] theorem State.withCursor_sticky (s : State) (n : Nat) : (s.withCursor n).sticky = s.sticky := rfl
@[simp] theorem State.withCursor_input (s : State) (n : Nat) : (s.withCursor n).input = s.input := rfl
@[simp] theorem State.withCursor_events (s : State) (n : Nat) : (s.withCursor n).events = s.events := rfl

/-! ### withProg -/

@[simp] theorem State.withProg_params (s : State) (cs : List Character) : (s.withProg cs).params = s.params := rfl
@[simp] theorem State.withProg_tapeLen (s : State) (cs : List Character) : (s.withProg cs).tapeLen = s.tapeLen := rfl
@[simp] theorem State.withProg_tape (s : State) (cs : List Character) : (s.withProg cs).tape = s.tape := rfl
@[simp] theorem State.withProg_cursor (s : State) (cs : List Character) : (s.withProg cs).cursor = s.cursor := rfl
@[simp] theorem State.withProg_prog (s : State) (cs : List Character) : (s.withProg cs).prog = cs := rfl
@[simp] theorem State.withProg_pc (s : State) (cs : List Character) : (s.withProg cs).pc = s.pc := rfl
@[simp] theorem State.withProg_stack (s : State) (cs : List Character) : (s.withProg cs).stack = s.stack := rfl
@[simp] theorem State.withProg_sticky (s : State) (cs : List Character) : (s.withProg cs).sticky = s.sticky := rfl
@[simp] theorem State.withProg_input (s : State) (cs : List Character) : (s.withProg cs).input = s.input := rfl
@[simp] theorem State.withProg_events (s : State) (cs : List Character) : (s.withProg cs).events = s.events := rfl

/-! ### withPc -/

@[simp] theorem State.withPc_params (s : State) (n : Nat) : (s.withPc n).params = s.params := rfl
@[simp] theorem State.withPc_tapeLen (s : State) (n : Nat) : (s.withPc n).tapeLen = s.tapeLen := rfl
@[simp] theorem State.withPc_tape (s : State) (n : Nat) : (s.withPc n).tape = s.tape := rfl
@[simp] theorem State.withPc_cursor (s : State) (n : Nat) : (s.withPc n).cursor = s.cursor := rfl
@[simp] theorem State.withPc_prog (s : State) (n : Nat) : (s.withPc n).prog = s.prog := rfl
@[simp] theorem State.withPc_pc (s : State) (n : Nat) : (s.withPc n).pc = n := rfl
@[simp] theorem State.withPc_stack (s : State) (n : Nat) : (s.withPc n).stack = s.stack := rfl
@[simp] theorem State.withPc_sticky (s : State) (n : Nat) : (s.withPc n).sticky = s.sticky := rfl
@[simp] theorem State.withPc_input (s : State) (n : Nat) : (s.withPc n).input = s.input := rfl
@[simp] theorem State.withPc_events (s : State) (n : Nat) : (s.withPc n).events = s.events := rfl

/-! ### withStack -/

@[simp] theorem State.withStack_params (s : State) (l : List Nat) : (s.withStack l).params = s.params := rfl
@[simp] theorem State.withStack_tapeLen (s : State) (l : List Nat) : (s.withStack l).tapeLen = s.tapeLen := rfl
@[simp] theorem State.withStack_tape (s : State) (l : List Nat) : (s.withStack l).tape = s.tape := rfl
@[simp] theorem State.withStack_cursor (s : State) (l : List Nat) : (s.withStack l).cursor = s.cursor := rfl
@[simp] theorem State.withStack_prog (s : State) (l : List Nat) : (s.withStack l).prog = s.prog := rfl
@[simp] theorem State.withStack_pc (s : State) (l : List Nat) : (s.withStack l).pc = s.pc := rfl
@[simp] theorem State.withStack_stack (s : State) (l : List Nat) : (s.withStack l).stack = l := rfl
@[simp] theorem State.withStack_sticky (s : State) (l : List Nat) : (s.withStack l).sticky = s.sticky := rfl
@[simp] theorem State.withStack_input (s : State) (l : List Nat) : (s.withStack l).input = s.input := rfl
@[simp] theorem State.withStack_events (s : State) (l : List Nat) : (s.withStack l).events = s.events := rfl

/-! ### withSticky -/

@[simp] theorem State.withSticky_params (s : State) (b : StickyBits) : (s.withSticky b).params = s.params := rfl
@[simp] theorem State.withSticky_tapeLen (s : State) (b : StickyBits) : (s.withSticky b).tapeLen = s.tapeLen := rfl
@[simp] theorem State.withSticky_tape (s : State) (b : StickyBits) : (s.withSticky b).tape = s.tape := rfl
@[simp] theorem State.withSticky_cursor (s : State) (b : StickyBits) : (s.withSticky b).cursor = s.cursor := rfl
@[simp] theorem State.withSticky_prog (s : State) (b : StickyBits) : (s.withSticky b).prog = s.prog := rfl
@[simp] theorem State.withSticky_pc (s : State) (b : StickyBits) : (s.withSticky b).pc = s.pc := rfl
@[simp] theorem State.withSticky_stack (s : State) (b : StickyBits) : (s.withSticky b).stack = s.stack := rfl
@[simp] theorem State.withSticky_sticky (s : State) (b : StickyBits) : (s.withSticky b).sticky = b := rfl
@[simp] theorem State.withSticky_input (s : State) (b : StickyBits) : (s.withSticky b).input = s.input := rfl
@[simp] theorem State.withSticky_events (s : State) (b : StickyBits) : (s.withSticky b).events = s.events := rfl

/-! ### withInput -/

@[simp] theorem State.withInput_params (s : State) (p : InputPort) : (s.withInput p).params = s.params := rfl
@[simp] theorem State.withInput_tapeLen (s : State) (p : InputPort) : (s.withInput p).tapeLen = s.tapeLen := rfl
@[simp] theorem State.withInput_tape (s : State) (p : InputPort) : (s.withInput p).tape = s.tape := rfl
@[simp] theorem State.withInput_cursor (s : State) (p : InputPort) : (s.withInput p).cursor = s.cursor := rfl
@[simp] theorem State.withInput_prog (s : State) (p : InputPort) : (s.withInput p).prog = s.prog := rfl
@[simp] theorem State.withInput_pc (s : State) (p : InputPort) : (s.withInput p).pc = s.pc := rfl
@[simp] theorem State.withInput_stack (s : State) (p : InputPort) : (s.withInput p).stack = s.stack := rfl
@[simp] theorem State.withInput_sticky (s : State) (p : InputPort) : (s.withInput p).sticky = s.sticky := rfl
@[simp] theorem State.withInput_input (s : State) (p : InputPort) : (s.withInput p).input = p := rfl
@[simp] theorem State.withInput_events (s : State) (p : InputPort) : (s.withInput p).events = s.events := rfl

/-! ### withEvents -/

@[simp] theorem State.withEvents_params (s : State) (l : List ChannelEvent) : (s.withEvents l).params = s.params := rfl
@[simp] theorem State.withEvents_tapeLen (s : State) (l : List ChannelEvent) : (s.withEvents l).tapeLen = s.tapeLen := rfl
@[simp] theorem State.withEvents_tape (s : State) (l : List ChannelEvent) : (s.withEvents l).tape = s.tape := rfl
@[simp] theorem State.withEvents_cursor (s : State) (l : List ChannelEvent) : (s.withEvents l).cursor = s.cursor := rfl
@[simp] theorem State.withEvents_prog (s : State) (l : List ChannelEvent) : (s.withEvents l).prog = s.prog := rfl
@[simp] theorem State.withEvents_pc (s : State) (l : List ChannelEvent) : (s.withEvents l).pc = s.pc := rfl
@[simp] theorem State.withEvents_stack (s : State) (l : List ChannelEvent) : (s.withEvents l).stack = s.stack := rfl
@[simp] theorem State.withEvents_sticky (s : State) (l : List ChannelEvent) : (s.withEvents l).sticky = s.sticky := rfl
@[simp] theorem State.withEvents_input (s : State) (l : List ChannelEvent) : (s.withEvents l).input = s.input := rfl
@[simp] theorem State.withEvents_events (s : State) (l : List ChannelEvent) : (s.withEvents l).events = l := rfl

/-! ### advance -/

@[simp] theorem State.advance_params (s : State) : (s.advance).params = s.params := rfl
@[simp] theorem State.advance_tapeLen (s : State) : (s.advance).tapeLen = s.tapeLen := rfl
@[simp] theorem State.advance_tape (s : State) : (s.advance).tape = s.tape := rfl
@[simp] theorem State.advance_cursor (s : State) : (s.advance).cursor = s.cursor := rfl
@[simp] theorem State.advance_prog (s : State) : (s.advance).prog = s.prog := rfl
@[simp] theorem State.advance_pc (s : State) : (s.advance).pc = s.pc + 1 := rfl
@[simp] theorem State.advance_stack (s : State) : (s.advance).stack = s.stack := rfl
@[simp] theorem State.advance_sticky (s : State) : (s.advance).sticky = s.sticky := rfl
@[simp] theorem State.advance_input (s : State) : (s.advance).input = s.input := rfl
@[simp] theorem State.advance_events (s : State) : (s.advance).events = s.events := rfl

/-! ### writeCell -/

@[simp] theorem State.writeCell_params (s : State) (v : Byte) : (s.writeCell v).params = s.params := rfl
@[simp] theorem State.writeCell_tapeLen (s : State) (v : Byte) : (s.writeCell v).tapeLen = s.tapeLen := rfl
@[simp] theorem State.writeCell_tape (s : State) (v : Byte) : (s.writeCell v).tape = s.tape.write s.cursor v := rfl
@[simp] theorem State.writeCell_cursor (s : State) (v : Byte) : (s.writeCell v).cursor = s.cursor := rfl
@[simp] theorem State.writeCell_prog (s : State) (v : Byte) : (s.writeCell v).prog = s.prog := rfl
@[simp] theorem State.writeCell_pc (s : State) (v : Byte) : (s.writeCell v).pc = s.pc := rfl
@[simp] theorem State.writeCell_stack (s : State) (v : Byte) : (s.writeCell v).stack = s.stack := rfl
@[simp] theorem State.writeCell_sticky (s : State) (v : Byte) : (s.writeCell v).sticky = s.sticky := rfl
@[simp] theorem State.writeCell_input (s : State) (v : Byte) : (s.writeCell v).input = s.input := rfl
@[simp] theorem State.writeCell_events (s : State) (v : Byte) : (s.writeCell v).events = s.events := rfl

/-! ### pop -/

@[simp] theorem State.pop_params (s : State) : (s.pop).params = s.params := rfl
@[simp] theorem State.pop_tapeLen (s : State) : (s.pop).tapeLen = s.tapeLen := rfl
@[simp] theorem State.pop_tape (s : State) : (s.pop).tape = s.tape := rfl
@[simp] theorem State.pop_cursor (s : State) : (s.pop).cursor = s.cursor := rfl
@[simp] theorem State.pop_prog (s : State) : (s.pop).prog = s.prog := rfl
@[simp] theorem State.pop_pc (s : State) : (s.pop).pc = s.pc := rfl
@[simp] theorem State.pop_stack (s : State) : (s.pop).stack = s.stack.dropLast := rfl
@[simp] theorem State.pop_sticky (s : State) : (s.pop).sticky = s.sticky := rfl
@[simp] theorem State.pop_input (s : State) : (s.pop).input = s.input := rfl
@[simp] theorem State.pop_events (s : State) : (s.pop).events = s.events := rfl

/-! ### emit -/

@[simp] theorem State.emit_params (s : State) (v : Byte) : (s.emit v).params = s.params := rfl
@[simp] theorem State.emit_tapeLen (s : State) (v : Byte) : (s.emit v).tapeLen = s.tapeLen := rfl
@[simp] theorem State.emit_tape (s : State) (v : Byte) : (s.emit v).tape = s.tape := rfl
@[simp] theorem State.emit_cursor (s : State) (v : Byte) : (s.emit v).cursor = s.cursor := rfl
@[simp] theorem State.emit_prog (s : State) (v : Byte) : (s.emit v).prog = s.prog := rfl
@[simp] theorem State.emit_pc (s : State) (v : Byte) : (s.emit v).pc = s.pc := rfl
@[simp] theorem State.emit_stack (s : State) (v : Byte) : (s.emit v).stack = s.stack := rfl
@[simp] theorem State.emit_sticky (s : State) (v : Byte) : (s.emit v).sticky = s.sticky := rfl
@[simp] theorem State.emit_input (s : State) (v : Byte) : (s.emit v).input = s.input := rfl
@[simp] theorem State.emit_events (s : State) (v : Byte) : (s.emit v).events = s.events ++ [.emitted v] := rfl

/-! ### raise -/

@[simp] theorem State.raise_params (s : State) (c : Cause) : (s.raise c).params = s.params := rfl
@[simp] theorem State.raise_tapeLen (s : State) (c : Cause) : (s.raise c).tapeLen = s.tapeLen := rfl
@[simp] theorem State.raise_tape (s : State) (c : Cause) : (s.raise c).tape = s.tape := rfl
@[simp] theorem State.raise_cursor (s : State) (c : Cause) : (s.raise c).cursor = s.cursor := rfl
@[simp] theorem State.raise_prog (s : State) (c : Cause) : (s.raise c).prog = s.prog := rfl
@[simp] theorem State.raise_pc (s : State) (c : Cause) : (s.raise c).pc = s.pc := rfl
@[simp] theorem State.raise_stack (s : State) (c : Cause) : (s.raise c).stack = s.stack := rfl
@[simp] theorem State.raise_sticky (s : State) (c : Cause) : (s.raise c).sticky = s.sticky.set c := rfl
@[simp] theorem State.raise_input (s : State) (c : Cause) : (s.raise c).input = s.input := rfl
@[simp] theorem State.raise_events (s : State) (c : Cause) : (s.raise c).events = s.events := rfl

end Sys2Proof.Machine
end

