-- ==== Sys2Proof/Laws/Memory.lean ====
section
/-! SUPPORT. The laws of the tape memory: a read after a write, and that a write keeps the canonical form. -/

namespace Sys2Proof.Machine

theorem Memory.read_insert_same (m : Memory) (a : Nat) (v : Byte) :
    (Memory.insert m a v).read a = v := by
  induction m with
  | nil => simp [Memory.insert, Memory.read]
  | cons c m ih =>
    simp only [Memory.insert]
    split
    · simp [Memory.read]
    · split
      · simp [Memory.read]
      · simp only [Memory.read, ih]
        rw [if_neg (by omega)]

theorem Memory.read_insert_other (m : Memory) {a b : Nat} (v : Byte) (h : b ≠ a) :
    (Memory.insert m a v).read b = m.read b := by
  induction m with
  | nil => simp [Memory.insert, Memory.read, h.symm]
  | cons c m ih =>
    simp only [Memory.insert]
    split
    · simp [Memory.read, h.symm]
    · split
      · rename_i h1
        simp only [Memory.read]
        rw [if_neg h.symm, if_neg (by omega)]
      · simp only [Memory.read, ih]

theorem Memory.read_erase_same (m : Memory) (a : Nat) :
    Memory.read (m.filter (fun c => c.1 ≠ a)) a = Memory.unlisted := by
  induction m with
  | nil => rfl
  | cons c m ih =>
    by_cases h : c.1 = a
    · simpa [h] using ih
    · rw [List.filter_cons_of_pos (by simpa using h)]
      simpa only [Memory.read, if_neg h] using ih

theorem Memory.read_erase_other (m : Memory) {a b : Nat} (h : b ≠ a) :
    Memory.read (m.filter (fun c => c.1 ≠ a)) b = m.read b := by
  induction m with
  | nil => rfl
  | cons c m ih =>
    by_cases hc : c.1 = a
    · have hb : c.1 ≠ b := fun e => h (e.symm.trans hc)
      rw [List.filter_cons_of_neg (by simpa using hc), ih]
      simp only [Memory.read, if_neg hb]
    · rw [List.filter_cons_of_pos (by simpa using hc)]
      simp only [Memory.read, ih]

/-- A read of the cell just written gives the value written. -/
theorem Memory.read_write_same (m : Memory) (a : Nat) (v : Byte) : (m.write a v).read a = v := by
  unfold Memory.write
  split
  · rename_i h
    rw [Memory.read_erase_same, h]
  · exact Memory.read_insert_same m a v

/-- A write leaves every other cell alone. -/
theorem Memory.read_write_other (m : Memory) {a b : Nat} (v : Byte) (h : b ≠ a) :
    (m.write a v).read b = m.read b := by
  unfold Memory.write
  split
  · exact Memory.read_erase_other m h
  · exact Memory.read_insert_other m v h

theorem Memory.mem_insert (m : Memory) (a : Nat) (v : Byte) {c : Host.Cell}
    (h : c ∈ Memory.insert m a v) : c = (a, v) ∨ c ∈ m := by
  induction m with
  | nil => simpa [Memory.insert] using h
  | cons d m ih =>
    simp only [Memory.insert] at h
    split at h
    · simpa using h
    · split at h
      · rcases List.mem_cons.1 h with h | h
        · exact .inl h
        · exact .inr (List.mem_cons_of_mem _ h)
      · rcases List.mem_cons.1 h with h | h
        · exact .inr (h ▸ List.mem_cons_self)
        · exact (ih h).imp_right (List.mem_cons_of_mem _)

/-- Every entry of a written tape was there before or is the cell written. -/
theorem Memory.mem_write (m : Memory) (a : Nat) (v : Byte) {c : Host.Cell}
    (h : c ∈ m.write a v) : (c = (a, v) ∧ v ≠ Memory.unlisted) ∨ c ∈ m := by
  unfold Memory.write at h
  split at h
  · exact .inr (List.mem_of_mem_filter h)
  · rename_i hv
    exact (Memory.mem_insert m a v h).imp_left (fun e => ⟨e, hv⟩)

theorem Memory.rising_insert (m : Memory) (a : Nat) (v : Byte)
    (h : m.Pairwise (fun x y => x.1 < y.1)) :
    (Memory.insert m a v).Pairwise (fun x y => x.1 < y.1) := by
  induction m with
  | nil => simp [Memory.insert]
  | cons d m ih =>
    have ⟨hd, hm⟩ := List.pairwise_cons.1 h
    simp only [Memory.insert]
    split
    · rename_i hlt
      refine List.pairwise_cons.2 ⟨fun c hc => ?_, h⟩
      rcases List.mem_cons.1 hc with rfl | hc
      · exact hlt
      · exact Nat.lt_trans hlt (hd c hc)
    · split
      · rename_i he
        exact List.pairwise_cons.2 ⟨fun c hc => he ▸ hd c hc, hm⟩
      · rename_i hge hne
        refine List.pairwise_cons.2 ⟨fun c hc => ?_, ih hm⟩
        rcases Memory.mem_insert m a v hc with rfl | hc
        · show d.1 < a
          omega
        · exact hd c hc

/-- A write keeps the canonical form. -/
theorem Memory.wf_write (m : Memory) (a : Nat) (v : Byte) (h : Memory.wf m) :
    Memory.wf (m.write a v) := by
  constructor
  · unfold Memory.write
    split
    · exact h.1.filter _
    · exact Memory.rising_insert m a v h.1
  · intro c hc
    rcases Memory.mem_write m a v hc with ⟨rfl, hv⟩ | hc
    · exact hv
    · exact h.2 c hc

/-- The reset state's tape has the canonical form. -/
theorem Memory.wf_reset : Memory.wf State.reset.tape := by decide

end Sys2Proof.Machine
end

