-- ==== Sys2Proof/Laws/Ops.lean ====
section
/-! SUPPORT. For each shared operation, once, everything it can do. -/

namespace Sys2Proof.Machine

theorem State.completed_eq (s : State) : s.completed = .next s.advance := rfl

theorem State.raiseFault_eq (s : State) : s.raiseFault = .next (s.raise .so) := rfl

theorem State.onCell_of_lt {s : State} (h : s.cursor < s.tapeLen) (k : Result) : s.onCell k = k :=
  if_pos h

theorem State.onCell_of_not_lt {s : State} (h : ¬ s.cursor < s.tapeLen) (k : Result) :
    s.onCell k = .fault .noSuchCell := if_neg h

/-- An operation on the current cell that ends in a next state had a cell to work on. -/
theorem State.onCell_next {s t : State} {k : Result} (h : s.onCell k = .next t) :
    s.cursor < s.tapeLen ∧ k = .next t := by
  unfold State.onCell at h
  split at h
  · exact ⟨‹_›, h⟩
  · cases h

/-- `push` succeeds exactly on a stack that is not full, and appends. -/
theorem State.push_eq_some {s t : State} {p : Nat} :
    s.push p = some t ↔
      Params.stackFull s.params s.stack.length = false ∧ t = s.withStack (s.stack ++ [p]) := by
  unfold State.push
  split
  · rename_i h
    simp [h]
  · rename_i h
    rw [h, Option.some.injEq]
    exact ⟨fun e => ⟨rfl, e.symm⟩, fun e => e.2.symm⟩

theorem State.push_eq_none {s : State} {p : Nat} :
    s.push p = none ↔ Params.stackFull s.params s.stack.length = true := by
  unfold State.push
  split <;> simp_all

theorem Params.stackFull_iff (p : Params) (n : Nat) :
    Params.stackFull p n = true ↔ p.stackDepth = some n := by
  unfold Params.stackFull
  split
  · simp_all
  · rename_i d h
    simp [h, eq_comm]

/-- `Receive()` takes the oldest supplied value, or a free one from an answering host, and records it. -/
theorem State.receive_eq_some {s t : State} {v : Byte} (h : s.receive = some (v, t)) :
    t = (s.withInput t.input).withEvents (s.events ++ [.received v]) ∧
      ((∃ rest, s.input.queue = v :: rest ∧ t.input = { s.input with queue := rest }) ∨
        (s.input.queue = [] ∧ s.input.answering = true ∧ v = Config.inputValue s.input.draws ∧
          t.input = { s.input with draws := s.input.draws + 1 })) := by
  unfold State.receive at h
  split at h
  · rename_i w rest hq
    simp only [Option.some.injEq, Prod.mk.injEq] at h
    obtain ⟨rfl, rfl⟩ := h
    exact ⟨rfl, .inl ⟨rest, hq, rfl⟩⟩
  · rename_i hq
    split at h
    · rename_i ha
      simp only [Option.some.injEq, Prod.mk.injEq] at h
      obtain ⟨rfl, rfl⟩ := h
      exact ⟨rfl, .inr ⟨hq, ha, rfl, rfl⟩⟩
    · cases h

/-- `Receive()` gets nothing exactly when no value stands in the queue and the host answers none. -/
theorem State.receive_eq_none {s : State} :
    s.receive = none ↔ s.input.queue = [] ∧ s.input.answering = false := by
  unfold State.receive
  split
  · simp_all
  · split <;> simp_all

theorem State.engineState_running {s : State} :
    s.engineState = .running ↔ s.sticky.so = false ∧ s.pc < s.prog.length := by
  unfold State.engineState
  split
  · simp_all
  · split <;> simp_all

theorem State.engineState_halted {s : State} :
    s.engineState = .halted ↔ s.sticky.so = false ∧ s.prog.length ≤ s.pc := by
  unfold State.engineState
  split
  · simp_all
  · split <;> simp_all

theorem State.engineState_faulted {s : State} : s.engineState = .faulted ↔ s.sticky.so = true := by
  unfold State.engineState
  split
  · simp_all
  · split <;> simp_all

/-- A character is fetched exactly by a Running engine, and it is the one at `pc`. -/
theorem State.fetch_eq_some {s : State} {ch : Character} :
    s.fetch = some ch ↔ s.sticky.so = false ∧ s.prog[s.pc]? = some ch := by
  unfold State.fetch
  split
  · rename_i h
    simp [(State.engineState_running.1 h).1]
  · rename_i h
    simp [(State.engineState_halted.1 h).2]
  · rename_i h
    simp [State.engineState_faulted.1 h]

theorem State.fetch_eq_none {s : State} :
    s.fetch = none ↔ s.sticky.so = true ∨ s.prog.length ≤ s.pc := by
  unfold State.fetch
  split
  · rename_i h
    simp [(State.engineState_running.1 h).1]
  · rename_i h
    simp [(State.engineState_halted.1 h).2]
  · rename_i h
    simp [State.engineState_faulted.1 h]

theorem State.cellNonzero_iff {s : State} : s.cellNonzero = true ↔ s.currentCell ≠ 0#8 := by
  simp [State.cellNonzero]

theorem State.cellNonzero_eq_false {s : State} : s.cellNonzero = false ↔ s.currentCell = 0#8 := by
  simp [State.cellNonzero]

/-- An event sets its own bit and no other. -/
theorem StickyBits.set_eq (b : StickyBits) (c : Cause) :
    b.set c = { uo := b.uo || decide (c = .uo), uc := b.uc || decide (c = .uc),
                ru := b.ru || decide (c = .ru), so := b.so || decide (c = .so) } := by
  cases c <;> simp [StickyBits.set]

/-- Writing the current cell changes that cell to the value and no other. -/
theorem State.read_writeCell (s : State) (v : Byte) (a : Nat) :
    (s.writeCell v).tape.read a = if a = s.cursor then v else s.tape.read a := by
  split
  · rename_i h
    rw [h, State.writeCell_tape, Memory.read_write_same]
  · rename_i h
    rw [State.writeCell_tape, Memory.read_write_other _ _ h]

/-- The capacity check of the program store. -/
theorem Params.fitsProgram_iff (p : Params) (n : Nat) :
    Params.fitsProgram p n = true ↔ ∀ k, p.progMax = some k → n ≤ k := by
  unfold Params.fitsProgram
  split <;> simp_all

theorem Params.fitsProgram_mono {p : Params} {m n : Nat} (h : m ≤ n)
    (hn : Params.fitsProgram p n = true) : Params.fitsProgram p m = true := by
  rw [Params.fitsProgram_iff] at *
  exact fun k hk => Nat.le_trans h (hn k hk)

end Sys2Proof.Machine
end

