-- ==== Sys2Proof/Laws/Scan.lean ====
section
/-! SUPPORT. The forward scan and the bracket sums, one character at a time, and where a match can lie. -/

namespace Sys2Proof.Machine

theorem bracketSum_nil : bracketSum [] = 0 := rfl

theorem bracketSum_cons (ch : Character) (cs : List Character) :
    bracketSum (ch :: cs) = bracketCount ch + bracketSum cs := by
  simp [bracketSum]

theorem bracketSum_append (as bs : List Character) :
    bracketSum (as ++ bs) = bracketSum as + bracketSum bs := by
  simp [bracketSum]

theorem closeLoop_ne_openLoop : Config.codes.closeLoop ≠ Config.codes.openLoop := by decide

theorem bracketCount_open : bracketCount Config.codes.openLoop = 1 := by decide

theorem bracketCount_close : bracketCount Config.codes.closeLoop = -1 := by decide

theorem bracketCount_other {ch : Character} (ho : ch ≠ Config.codes.openLoop)
    (hc : ch ≠ Config.codes.closeLoop) : bracketCount ch = 0 := by
  simp [bracketCount, ho, hc]

theorem scanFrom_open (cs : List Character) (i d : Nat) :
    scanFrom (Config.codes.openLoop :: cs) i d = scanFrom cs (i + 1) (d + 1) := by
  simp [scanFrom]

theorem scanFrom_close (cs : List Character) (i d : Nat) :
    scanFrom (Config.codes.closeLoop :: cs) i d =
      if d - 1 = 0 then .found i else scanFrom cs (i + 1) (d - 1) := by
  simp [scanFrom, closeLoop_ne_openLoop]

theorem scanFrom_other {ch : Character} (ho : ch ≠ Config.codes.openLoop)
    (hc : ch ≠ Config.codes.closeLoop) (cs : List Character) (i d : Nat) :
    scanFrom (ch :: cs) i d = scanFrom cs (i + 1) d := by
  simp [scanFrom, ho, hc]

/-- A match lies at or after the position the scan reads from, within the text. -/
theorem scanFrom_found_range {cs : List Character} {i d m : Nat}
    (h : scanFrom cs i d = .found m) : i ≤ m ∧ m < i + cs.length := by
  induction cs generalizing i d with
  | nil => simp [scanFrom] at h
  | cons ch cs ih =>
    simp only [scanFrom] at h
    simp only [List.length_cons]
    split at h
    · have := ih h
      omega
    · split at h
      · split at h
        · simp only [ScanResult.found.injEq] at h
          omega
        · have := ih h
          omega
      · have := ih h
        omega

/-- `Found(m)` lies within the program and not before the start. -/
theorem scanForward_found_range {prog : List Character} {p m : Nat}
    (h : scanForward prog p = .found m) : p ≤ m ∧ m < prog.length := by
  have := scanFrom_found_range h
  simp only [List.length_drop] at this
  omega

/-- The open brackets after one character more. -/
theorem openFrom_append (as bs : List Character) (i : Nat) (l : List Nat) :
    openFrom (as ++ bs) i l = openFrom bs (i + as.length) (openFrom as i l) := by
  induction as generalizing i l with
  | nil => simp [openFrom]
  | cons ch as ih =>
    have e : i + (as.length + 1) = i + 1 + as.length := by omega
    simp only [List.cons_append, openFrom, List.length_cons, e]
    split
    · exact ih _ _
    · split <;> exact ih _ _

theorem enclosingOpens_zero (prog : List Character) : enclosingOpens prog 0 = [] := by
  simp [enclosingOpens, openFrom]

theorem enclosingOpens_succ {prog : List Character} {p : Nat} {ch : Character}
    (h : prog[p]? = some ch) :
    enclosingOpens prog (p + 1) =
      if ch = Config.codes.openLoop then enclosingOpens prog p ++ [p]
      else if ch = Config.codes.closeLoop then (enclosingOpens prog p).dropLast
      else enclosingOpens prog p := by
  have hp : p < prog.length := (List.getElem?_eq_some_iff.1 h).1
  have e : prog.take (p + 1) = prog.take p ++ [ch] := by
    rw [List.take_add_one, h]
    rfl
  simp [enclosingOpens, e, openFrom_append, openFrom, List.length_take, Nat.min_eq_left hp.le]

/-! ### What a scan finds, in terms of the running sum -/

theorem bracketCount_cases (ch : Character) :
    (ch = Config.codes.openLoop ∧ bracketCount ch = 1) ∨
      (ch = Config.codes.closeLoop ∧ bracketCount ch = -1) ∨
      (ch ≠ Config.codes.openLoop ∧ ch ≠ Config.codes.closeLoop ∧ bracketCount ch = 0) := by
  by_cases ho : ch = Config.codes.openLoop
  · exact .inl ⟨ho, ho ▸ bracketCount_open⟩
  · by_cases hc : ch = Config.codes.closeLoop
    · exact .inr (.inl ⟨hc, hc ▸ bracketCount_close⟩)
    · exact .inr (.inr ⟨ho, hc, bracketCount_other ho hc⟩)

/-- A scan with `depth ≥ 1` stops at the first place where the running sum reaches `-depth`. -/
theorem scanFrom_found_sum {cs : List Character} {i d m : Nat} (hd : 1 ≤ d)
    (h : scanFrom cs i d = .found m) :
    ∃ n, m = i + n ∧ cs[n]? = some Config.codes.closeLoop ∧
      (d : Int) + bracketSum (cs.take (n + 1)) = 0 ∧
      ∀ k ≤ n, 1 ≤ (d : Int) + bracketSum (cs.take k) := by
  induction cs generalizing i d with
  | nil => simp [scanFrom] at h
  | cons ch cs ih =>
    have step : ∀ d' : Nat, 1 ≤ d' → (d' : Int) = d + bracketCount ch →
        scanFrom cs (i + 1) d' = .found m →
        ∃ n, m = i + n ∧ (ch :: cs)[n]? = some Config.codes.closeLoop ∧
          (d : Int) + bracketSum ((ch :: cs).take (n + 1)) = 0 ∧
          ∀ k ≤ n, 1 ≤ (d : Int) + bracketSum ((ch :: cs).take k) := fun d' h1 he hf => by
      obtain ⟨n, hm, hcl, h0, hk⟩ := ih h1 hf
      refine ⟨n + 1, by omega, by simpa using hcl, ?_, ?_⟩
      · rw [List.take_succ_cons, bracketSum_cons]
        omega
      · intro k hkn
        cases k with
        | zero =>
          rw [List.take_zero, bracketSum_nil]
          omega
        | succ k =>
          have := hk k (by omega)
          rw [List.take_succ_cons, bracketSum_cons]
          omega
    rcases bracketCount_cases ch with ⟨rfl, hb⟩ | ⟨rfl, hb⟩ | ⟨ho, hc, hb⟩
    · rw [scanFrom_open] at h
      exact step (d + 1) (by omega) (by omega) h
    · rw [scanFrom_close] at h
      split at h
      · cases h
        refine ⟨0, rfl, rfl, ?_, ?_⟩
        · rw [List.take_succ_cons, List.take_zero, bracketSum_cons, bracketSum_nil, hb]
          omega
        · intro k hk
          rw [Nat.le_zero.1 hk, List.take_zero, bracketSum_nil]
          omega
      · exact step (d - 1) (by omega) (by omega) h
    · rw [scanFrom_other ho hc] at h
      exact step d hd (by omega) h

/-- A scan with `depth ≥ 1` that finds nothing never sees the running sum reach `-depth`. -/
theorem scanFrom_notFound_sum {cs : List Character} {i d : Nat} (hd : 1 ≤ d)
    (h : scanFrom cs i d = .notFound) (k : Nat) : 1 ≤ (d : Int) + bracketSum (cs.take k) := by
  induction cs generalizing i d k with
  | nil =>
    rw [List.take_nil, bracketSum_nil]
    omega
  | cons ch cs ih =>
    cases k with
    | zero =>
      rw [List.take_zero, bracketSum_nil]
      omega
    | succ k =>
      rw [List.take_succ_cons, bracketSum_cons]
      rcases bracketCount_cases ch with ⟨rfl, hb⟩ | ⟨rfl, hb⟩ | ⟨ho, hc, hb⟩
      · rw [scanFrom_open] at h
        have := ih (by omega) h k
        omega
      · rw [scanFrom_close] at h
        split at h
        · cases h
        · have := ih (by omega) h k
          omega
      · rw [scanFrom_other ho hc] at h
        have := ih hd h k
        omega

/-- The text a scan passes over closes exactly the `depth` innermost open brackets. -/
theorem openFrom_scanned {cs : List Character} {i d m : Nat} {l l' : List Nat} (hd : 1 ≤ d)
    (hl : l'.length = d) (h : scanFrom cs i d = .found m) :
    openFrom (cs.take (m + 1 - i)) i (l ++ l') = l := by
  induction cs generalizing i d l' with
  | nil => simp [scanFrom] at h
  | cons ch cs ih =>
    have hr := scanFrom_found_range h
    obtain ⟨j, hj⟩ : ∃ j, m + 1 - i = j + 1 := ⟨m - i, by omega⟩
    rw [hj, List.take_succ_cons]
    have next : ∀ {x}, scanFrom cs (i + 1) x = .found m → j = m + 1 - (i + 1) :=
      fun hf => by
        have := scanFrom_found_range hf
        omega
    rcases bracketCount_cases ch with ⟨rfl, -⟩ | ⟨rfl, -⟩ | ⟨ho, hc, -⟩
    · rw [scanFrom_open] at h
      rw [next h]
      simp only [openFrom, if_true, List.append_assoc]
      exact ih (by omega) (by simp [hl]) h
    · rw [scanFrom_close] at h
      have hne : l' ≠ [] := by
        rintro rfl
        simp at hl
        omega
      simp only [openFrom, closeLoop_ne_openLoop, if_false, if_true,
        List.dropLast_append_of_ne_nil hne]
      split at h
      · cases h
        obtain rfl : j = 0 := by omega
        have : l'.dropLast = [] := by
          rw [← List.length_eq_zero_iff, List.length_dropLast]
          omega
        simp [this, openFrom]
      · rw [next h]
        exact ih (by omega) (by rw [List.length_dropLast, hl]) h
    · rw [scanFrom_other ho hc] at h
      rw [next h]
      simp only [openFrom, ho, hc, if_false]
      exact ih hd hl h

/-! ### The enclosing open brackets of a position -/

theorem scanFrom_drop {prog : List Character} {p : Nat} {ch : Character} (h : prog[p]? = some ch)
    (d : Nat) : scanFrom (prog.drop p) p d = scanFrom (ch :: prog.drop (p + 1)) p d := by
  obtain ⟨hp, he⟩ := List.getElem?_eq_some_iff.1 h
  rw [List.drop_eq_getElem_cons hp, he]

/-- The innermost enclosing `[` of a position: it lies before it, the others enclose it in turn, and a scan
from it is still one bracket deep at the position. -/
theorem enclosingOpens_top {prog : List Character} {p t : Nat} {l : List Nat}
    (hp : p ≤ prog.length) (h : enclosingOpens prog p = l ++ [t]) :
    t < p ∧ prog[t]? = some Config.codes.openLoop ∧ enclosingOpens prog t = l ∧
      ∀ d, scanFrom (prog.drop t) t d = scanFrom (prog.drop p) p (d + 1) := by
  induction p using Nat.strong_induction_on generalizing l t with
  | _ p ih =>
    cases p with
    | zero => simp [enclosingOpens_zero] at h
    | succ p =>
      obtain ⟨ch, hch⟩ : ∃ ch, prog[p]? = some ch := ⟨_, List.getElem?_eq_getElem (by omega)⟩
      rw [enclosingOpens_succ hch] at h
      rcases bracketCount_cases ch with ⟨rfl, -⟩ | ⟨rfl, -⟩ | ⟨ho, hc, -⟩
      · rw [if_pos rfl] at h
        obtain ⟨hl, ht⟩ := List.append_inj' h rfl
        obtain rfl : p = t := by simpa using ht
        refine ⟨by omega, hch, hl, fun d => ?_⟩
        rw [scanFrom_drop hch, scanFrom_open]
      · rw [if_neg closeLoop_ne_openLoop, if_pos rfl] at h
        obtain ⟨u, hu⟩ : ∃ u, enclosingOpens prog p = l ++ [t] ++ [u] := by
          have hne : enclosingOpens prog p ≠ [] := by
            intro e
            simp [e] at h
          exact ⟨_, by rw [← h, List.dropLast_append_getLast hne]⟩
        obtain ⟨hup, -, hue, hus⟩ := ih p (by omega) (by omega) hu
        obtain ⟨htu, hto, hte, hts⟩ := ih u (by omega) (by omega) hue
        refine ⟨by omega, hto, hte, fun d => ?_⟩
        rw [hts, hus, scanFrom_drop hch, scanFrom_close, if_neg (by omega)]
        rfl
      · rw [if_neg ho, if_neg hc] at h
        obtain ⟨htp, hto, hte, hts⟩ := ih p (by omega) (by omega) h
        refine ⟨by omega, hto, hte, fun d => ?_⟩
        rw [hts, scanFrom_drop hch, scanFrom_other ho hc]

/-- Where no running sum drops below 0, as many `[`s enclose a position as the running sum says. -/
theorem enclosingOpens_length {prog : List Character} (hb : ∀ n, 0 ≤ bracketSum (prog.take n))
    {p : Nat} (hp : p ≤ prog.length) :
    ((enclosingOpens prog p).length : Int) = bracketSum (prog.take p) := by
  induction p with
  | zero => simp [enclosingOpens_zero, bracketSum_nil]
  | succ p ih =>
    obtain ⟨ch, hch⟩ : ∃ ch, prog[p]? = some ch := ⟨_, List.getElem?_eq_getElem (by omega)⟩
    have h0 := ih (by omega)
    have h1 := hb (p + 1)
    have e : prog.take (p + 1) = prog.take p ++ [ch] := by
      rw [List.take_add_one, hch]
      rfl
    rw [e, bracketSum_append, bracketSum_cons, bracketSum_nil] at h1 ⊢
    rw [enclosingOpens_succ hch]
    rcases bracketCount_cases ch with ⟨rfl, hc⟩ | ⟨rfl, hc⟩ | ⟨ho, hcl, hc⟩
    · rw [if_pos rfl, List.length_append, List.length_singleton]
      omega
    · rw [if_neg closeLoop_ne_openLoop, if_pos rfl, List.length_dropLast]
      omega
    · rw [if_neg ho, if_neg hcl]
      omega

end Sys2Proof.Machine
end

