-- ==== Sys2Proof/Laws/Step.lean ====
section
/-! SUPPORT. What one step can do, said once: the step by its fetch, and one lemma per instruction that names
every next state its meaning has. -/

namespace Sys2Proof.Machine

theorem step_of_fetch {s : State} {ch : Character} (h : s.fetch = some ch) :
    step s = exec (decode ch) s := by
  simp [step, h]

theorem step_of_no_fetch {s : State} (h : s.fetch = none) : step s = .next s := by
  simp [step, h]

/-- A step that ends in a next state changed nothing or executed the character at `pc`. -/
theorem step_next_cases {s t : State} (h : step s = .next t) :
    (s.fetch = none ∧ t = s) ∨ ∃ ch, s.fetch = some ch ∧ exec (decode ch) s = .next t := by
  unfold step at h
  split at h
  · rename_i hf
    cases h
    exact .inl ⟨hf, rfl⟩
  · rename_i ch hf
    exact .inr ⟨ch, hf, h⟩

theorem execMoveLeft_next {s t : State} (h : exec .moveLeft s = .next t) :
    t = (s.withCursor (if s.cursor > 0 then s.cursor - 1 else s.tapeLen - 1)).advance := by
  cases h
  rfl

theorem execMoveRight_next {s t : State} (h : exec .moveRight s = .next t) :
    t = (s.withCursor (if s.cursor < s.tapeLen - 1 then s.cursor + 1 else 0)).advance := by
  cases h
  rfl

theorem execIncrement_next {s t : State} (h : exec .increment s = .next t) :
    s.cursor < s.tapeLen ∧ t = (s.writeCell (s.currentCell + 1#8)).advance := by
  obtain ⟨hc, h⟩ := State.onCell_next h
  cases h
  exact ⟨hc, rfl⟩

theorem execDecrement_next {s t : State} (h : exec .decrement s = .next t) :
    s.cursor < s.tapeLen ∧ t = (s.writeCell (s.currentCell - 1#8)).advance := by
  obtain ⟨hc, h⟩ := State.onCell_next h
  cases h
  exact ⟨hc, rfl⟩

theorem execConsolePrint_next {s t : State} (h : exec .consolePrint s = .next t) :
    s.cursor < s.tapeLen ∧ t = (s.emit s.currentCell).advance := by
  obtain ⟨hc, h⟩ := State.onCell_next h
  cases h
  exact ⟨hc, rfl⟩

theorem execConsoleRead_next {s t : State} (h : exec .consoleRead s = .next t) :
    (s.params.readImpl = .input ∧ s.cursor < s.tapeLen ∧
        ∃ v s', s.receive = some (v, s') ∧ t = (s'.writeCell v).advance) ∨
      (s.params.readImpl = .unsupported ∧ t = (s.raise .ru).advance) := by
  simp only [exec, execConsoleRead] at h
  split at h
  · rename_i hr
    obtain ⟨hc, h⟩ := State.onCell_next h
    split at h
    · rename_i v s' hv
      cases h
      exact .inl ⟨hr, hc, v, s', hv, rfl⟩
    · cases h
  · rename_i hr
    cases h
    exact .inr ⟨hr, rfl⟩

theorem execOpenLoop_next {s t : State} (h : exec .openLoop s = .next t) :
    s.cursor < s.tapeLen ∧
      ((s.currentCell ≠ 0#8 ∧ Params.stackFull s.params s.stack.length = false ∧
          t = (s.withStack (s.stack ++ [s.pc])).advance) ∨
        (s.currentCell ≠ 0#8 ∧ Params.stackFull s.params s.stack.length = true ∧ t = s.raise .so) ∨
        (s.currentCell = 0#8 ∧ ∃ m, scanForward s.prog s.pc = .found m ∧
          t = (s.withPc m).advance) ∨
        (s.currentCell = 0#8 ∧ scanForward s.prog s.pc = .notFound ∧
          t = (s.raise .uo).afterUnmatchedOpen.advance)) := by
  obtain ⟨hc, h⟩ := State.onCell_next h
  refine ⟨hc, ?_⟩
  split at h
  · rename_i hz
    have hz := State.cellNonzero_iff.1 hz
    split at h
    · rename_i s' hp
      obtain ⟨hf, rfl⟩ := State.push_eq_some.1 hp
      cases h
      exact .inl ⟨hz, hf, rfl⟩
    · rename_i hp
      cases h
      exact .inr (.inl ⟨hz, State.push_eq_none.1 hp, rfl⟩)
  · rename_i hz
    have hz := State.cellNonzero_eq_false.1 hz
    split at h
    · rename_i m hm
      cases h
      exact .inr (.inr (.inl ⟨hz, m, hm, rfl⟩))
    · rename_i hm
      cases h
      exact .inr (.inr (.inr ⟨hz, hm, rfl⟩))

theorem execCloseLoop_next {s t : State} (h : exec .closeLoop s = .next t) :
    s.cursor < s.tapeLen ∧
      ((s.currentCell ≠ 0#8 ∧ ∃ p, s.stack.getLast? = some p ∧ t = (s.withPc p).advance) ∨
        (s.currentCell ≠ 0#8 ∧ s.stack = [] ∧ t = (s.raise .uc).advance) ∨
        (s.currentCell = 0#8 ∧ t = s.pop.advance)) := by
  obtain ⟨hc, h⟩ := State.onCell_next h
  refine ⟨hc, ?_⟩
  split at h
  · rename_i hz
    have hz := State.cellNonzero_iff.1 hz
    split at h
    · rename_i p hp
      cases h
      exact .inl ⟨hz, p, hp, rfl⟩
    · rename_i hp
      cases h
      exact .inr (.inl ⟨hz, by simpa [State.top] using hp, rfl⟩)
  · rename_i hz
    have hz := State.cellNonzero_eq_false.1 hz
    cases h
    exact .inr (.inr ⟨hz, rfl⟩)

theorem execSkip_next {ch : Character} {s t : State} (h : exec (.skip ch) s = .next t) :
    t = s.advance := by
  cases h
  rfl

/-- The three outcomes of a decoded character, by the character. -/
theorem decode_openLoop_iff (ch : Character) : decode ch = .openLoop ↔ ch = Config.codes.openLoop := by
  unfold decode
  repeat' split
  all_goals simp_all [Config.codes]

theorem decode_closeLoop_iff (ch : Character) :
    decode ch = .closeLoop ↔ ch = Config.codes.closeLoop := by
  unfold decode
  repeat' split
  all_goals simp_all [Config.codes]

theorem decode_consoleRead_iff (ch : Character) :
    decode ch = .consoleRead ↔ ch = Config.codes.consoleRead := by
  unfold decode
  repeat' split
  all_goals simp_all [Config.codes]

end Sys2Proof.Machine
end

