-- ==== Sys2Proof/Laws/Host.lean ====
section
/-! SUPPORT. The host's commands: what a LOAD and a CONSTRUCT give, and the one induction over RUN, packaged so
that a property every step keeps is kept by every command. -/

namespace Sys2Proof.Machine

/-- LOAD succeeds on a source that fits, and then sets the program and `pc`. -/
theorem State.load_eq_some {s t : State} {src : List Character} :
    s.load src = some t ↔
      Params.fitsProgram s.params src.length = true ∧ t = (s.withProg src).withPc 0 := by
  unfold State.load
  split
  · rename_i h
    rw [Option.some.injEq]
    exact ⟨fun e => ⟨h, e.symm⟩, fun e => e.2.symm⟩
  · rename_i h
    simp [h]

theorem State.command_construct (s : State) {n : Nat} (h : n ≠ 0) :
    s.command (.construct n) =
      (.done, ((State.constructed s.params n).withInput s.input).withEvents s.events) := by
  simp [State.command, State.construct, h]

/-- A STEP command leaves the state of its step, or the state it found. -/
theorem State.stepCommand_keeps {P : State → Prop}
    (hstep : ∀ s t, P s → step s = .next t → P t) {s : State} (h : P s) : P s.stepCommand.2 := by
  unfold State.stepCommand
  split
  · exact hstep _ _ h ‹_›
  · exact h
  · exact h

/-- What every step keeps, RUN keeps. -/
theorem State.runCommand_keeps {P : State → Prop}
    (hstep : ∀ s t, P s → step s = .next t → P t) (fuel : Nat) {s : State} (h : P s) :
    P (s.runCommand fuel).2 := by
  induction fuel generalizing s with
  | zero => exact h
  | succ fuel ih =>
    have hc := State.stepCommand_keeps hstep h
    unfold State.runCommand
    split <;> rename_i e <;> rw [e] at hc
    · exact ih hc
    · exact hc
    · exact hc

/-- What every step and every successful LOAD keep, every command but CONSTRUCT keeps. -/
theorem State.command_keeps {P : State → Prop}
    (hstep : ∀ s t, P s → step s = .next t → P t) {s : State} {c : Command} (h : P s)
    (hc : ∀ n, c ≠ .construct n)
    (hload : ∀ src t, c = .load src → s.load src = some t → P t) : P (s.command c).2 := by
  cases c with
  | construct n => exact absurd rfl (hc n)
  | load src =>
    cases e : s.load src with
    | none => simpa only [State.command, e] using h
    | some t => simpa only [State.command, e] using hload src t rfl e
  | step => exact State.stepCommand_keeps hstep h
  | run fuel => exact State.runCommand_keeps hstep fuel h
  | inspect what =>
    cases e : s.inspect what <;> simpa only [State.command, e] using h

/-- The adjustment of `pc` after a failed scan touches nothing else. -/
theorem State.afterUnmatchedOpen_eq (s : State) :
    s.afterUnmatchedOpen = s.withPc s.afterUnmatchedOpen.pc := by
  unfold State.afterUnmatchedOpen
  split <;> rfl

/-- A scan machine in IDLE stays there. -/
theorem ScanMachine.run_idle (prog : List Character) (r : Option ScanResult) (n : Nat) :
    ScanMachine.run prog n { state := .idle, result := r } = { state := .idle, result := r } := by
  induction n with
  | zero => rfl
  | succ n ih => exact ih

end Sys2Proof.Machine
end

