-- ==== Sys2Proof/Laws/PerInstr.lean ====
section
/-! SUPPORT. The per-instruction family EncodeLegal: the encoding of a well-formed instruction is a character
an instance with those `CHAR_BITS` can hold. -/

namespace Sys2Proof.Laws.EncodeLegal

/-- The encoding of a well-formed instruction is a legal character (30_encoding R63). -/
def Statement (i : Instr) : Prop :=
  ∀ w : CharBits, WellFormed w i = true → Character.legal w (encode i) = true

theorem moveLeft : Statement .moveLeft := fun w _ => by cases w <;> decide

theorem moveRight : Statement .moveRight := fun w _ => by cases w <;> decide

theorem increment : Statement .increment := fun w _ => by cases w <;> decide

theorem decrement : Statement .decrement := fun w _ => by cases w <;> decide

theorem consolePrint : Statement .consolePrint := fun w _ => by cases w <;> decide

theorem consoleRead : Statement .consoleRead := fun w _ => by cases w <;> decide

theorem openLoop : Statement .openLoop := fun w _ => by cases w <;> decide

theorem closeLoop : Statement .closeLoop := fun w _ => by cases w <;> decide

theorem skip (ch : Character) : Statement (.skip ch) := fun _ h =>
  ((Bool.and_eq_true _ _).mp h).1

end Sys2Proof.Laws.EncodeLegal
end

