-- ==== Sys2Proof/Tests/Slice0.lean ====
section
/-! SUPPORT. The model's own tests, their expected results taken from 95_test_vectors and the rules' examples, and
for every statement with hypotheses a witness that meets them all together. -/

namespace Sys2Proof.Tests

open Sys2Proof Sys2Proof.Machine

/-! ### Helpers -/

/-- A state from CONSTRUCT(`len`) and LOAD(`prog`), with the tape, cursor, `pc` and stack given. -/
def st (len : Nat) (tape : Memory) (cursor : Nat) (prog : List Character) (pc : Nat)
    (stack : List Nat) : State :=
  { State.constructed Params.default len with
    tape := tape, cursor := cursor, prog := prog, pc := pc, stack := stack }

/-- The same state with the parameters changed. -/
def withParams (s : State) (p : Params) : State := { s with params := p }

/-- What `f` reads in the next state of one step. -/
def after {α : Type} (f : State → α) (s : State) : Option α :=
  match step s with
  | .next t => some (f t)
  | .fault _ => none
  | .refused _ => none

/-- The fault a step of `s` stops with. -/
def faultOf (s : State) : Option Fault :=
  match step s with
  | .next _ => none
  | .fault r => some r
  | .refused _ => none

/-- `RU` parameter: `,` unsupported. -/
def unsupported : Params := { Params.default with readImpl := .unsupported }

/-- `STACK_DEPTH = 1`. -/
def depthOne : Params := { Params.default with stackDepth := some 1 }

/-- `UNMATCHED_OPEN_MODE = SkipToEnd`. -/
def skipToEnd : Params := { Params.default with unmatchedOpenMode := .skipToEnd }

/-- `PROG_MAX = 1`. -/
def progOne : Params := { Params.default with progMax := some 1 }

/-- A port whose host supplies nothing. -/
def silent : InputPort := { queue := [], answering := false, draws := 0 }

/-- The character codes used below, written out from 30_encoding R62. -/
def lt : Character := 0b00111100#21
def gt : Character := 0b00111110#21
def plus : Character := 0b00101011#21
def minus : Character := 0b00101101#21
def dot : Character := 0b00101110#21
def comma : Character := 0b00101100#21
def opn : Character := 0b01011011#21
def cls : Character := 0b01011101#21

/-! ### WellFormed smoke: an ill-formed term for each check, and the boundary values beside it -/

theorem test_wf_refuses_skip_of_operation : WellFormed .bits8 (.skip 0x3C#21) = false := by decide

theorem test_wf_refuses_nine_bit_character : WellFormed .bits8 (.skip 0x100#21) = false := by decide

theorem test_wf_refuses_surrogates :
    WellFormed .bits21 (.skip 0xD800#21) = false ∧ WellFormed .bits21 (.skip 0xDFFF#21) = false := by
  decide

theorem test_wf_refuses_above_scalar_values : WellFormed .bits21 (.skip 0x110000#21) = false := by
  decide

theorem test_wf_accepts_boundaries :
    WellFormed .bits8 (.skip 0xFF#21) = true ∧ WellFormed .bits21 (.skip 0xD7FF#21) = true ∧
      WellFormed .bits21 (.skip 0xE000#21) = true ∧
      WellFormed .bits21 (.skip 0x10FFFF#21) = true ∧ WellFormed .bits8 .openLoop = true := by
  decide

/-! ### Decoding: every operation's word written out from 30_encoding R62 -/

theorem test_decode_tape_family :
    decode lt = .moveLeft ∧ decode gt = .moveRight ∧ decode plus = .increment ∧
      decode minus = .decrement := by decide

theorem test_decode_channel_family : decode dot = .consolePrint ∧ decode comma = .consoleRead := by
  decide

theorem test_decode_loop_family : decode opn = .openLoop ∧ decode cls = .closeLoop := by decide

theorem test_decode_skip : decode 0x61#21 = .skip 0x61#21 ∧ decode 0#21 = .skip 0#21 := by decide

theorem test_decode_table_word :
    decodeTableWord 8 0x5B = some .openLoop ∧ decodeTableWord 8 0x5A = some (.skip 0x5A#21) := by
  decide

/-- R76, with the codes of R62. -/
theorem test_assemble :
    assemble ['+', '[', '>', '.', ']', 'a'] = [0x2B#21, 0x5B#21, 0x3E#21, 0x2E#21, 0x5D#21, 0x61#21] ∧
      (decode 0x61#21).mnemonic = "Skip" := by decide

/-! ### One step each, from 95_test_vectors -/

/-- T2 -/
theorem test_moveLeft_wraps : after State.cursor (st 5 [] 0 [lt] 0 []) = some 4 := by decide

/-- T3 -/
theorem test_moveLeft_one_cell : after State.cursor (st 1 [(0, 9)] 0 [lt] 0 []) = some 0 := by decide

/-- T5 -/
theorem test_moveRight_wraps : after State.cursor (st 5 [] 4 [gt] 0 []) = some 0 := by decide

/-- T4 -/
theorem test_moveRight_moves : after State.cursor (st 5 [] 3 [gt] 0 []) = some 4 := by decide

/-- T7 -/
theorem test_increment_current_cell_only :
    after State.tape (st 3 [(0, 3), (1, 7)] 1 [plus] 0 []) = some [(0, 3), (1, 8)] := by decide

/-- T8: the cell returns to the unlisted value, so its entry goes. -/
theorem test_increment_wraps : after State.tape (st 1 [(0, 255)] 0 [plus] 0 []) = some [] := by decide

/-- T10 -/
theorem test_decrement_current_cell_only :
    after State.tape (st 2 [(1, 7)] 1 [minus] 0 []) = some [(1, 6)] := by decide

/-- T11 -/
theorem test_decrement_wraps : after State.tape (st 1 [] 0 [minus] 0 []) = some [(0, 255)] := by decide

/-- I1 -/
theorem test_consolePrint_emits :
    after State.outputs (st 1 [(0, 0x41)] 0 [dot] 0 []) = some [0x41#8] := by decide

/-- I2 -/
theorem test_consolePrint_emits_zero : after State.outputs (st 1 [] 0 [dot] 0 []) = some [0#8] := by
  decide

/-- I3 -/
theorem test_consoleRead_stores :
    after State.tape ((st 1 [(0, 7)] 0 [comma] 0 []).supplyInput 0x30#8) = some [(0, 0x30)] := by
  decide

/-- I6 -/
theorem test_consoleRead_unsupported :
    after (fun t => (t.tape, t.status)) (withParams (st 1 [(0, 7)] 0 [comma, dot] 0 []) unsupported) =
      some ([(0, 7)], 0b00001000#8) := by decide

/-- L3 -/
theorem test_openLoop_nested_skip :
    after State.pc (st 1 [] 0 [opn, opn, cls, cls, plus] 0 []) = some 4 := by decide

/-- L13 -/
theorem test_openLoop_overflow :
    after (fun t => (t.pc, t.stack, t.status))
        (withParams (st 1 [(0, 1)] 0 [plus, opn, opn] 2 [1]) depthOne) =
      some (2, [1], 0b00010001#8) := by decide

/-- L14 -/
theorem test_closeLoop_jumps_to_top :
    after (fun t => (t.pc, t.stack)) (st 1 [(0, 3)] 0 [cls] 0 [4, 9]) = some (10, [4, 9]) := by decide

/-- L9 -/
theorem test_closeLoop_pops :
    after (fun t => (t.pc, t.stack)) (st 1 [] 0 [plus, opn, minus, cls] 3 [1]) = some (4, []) := by
  decide

/-- K3 -/
theorem test_skip_advances : after State.pc (st 1 [] 0 [0#21] 0 []) = some 1 := by decide

/-- H1 -/
theorem test_step_after_reset_halted :
    (State.reset.command .step).1 = .bool false ∧ State.reset.status = 1#8 := by decide

/-- H3: a stale entry jumps past the end of the new program. -/
theorem test_stale_entry_jump :
    (((st 2 [(0, 1)] 0 [plus, opn] 2 [1]).command (.load [cls])).2.command (.run 5)).2.pc = 2 := by
  decide

/-- H5, H6, H7 -/
theorem test_refused_commands :
    (State.reset.command (.construct 0)).1 = .refused ∧
      (State.reset.command (.inspect (.tape State.reset.tapeLen))).1 = .refused ∧
      ((withParams State.reset progOne).command (.load [plus, plus])).1 = .refused := by decide

/-- I5: with no value ever supplied the step is stuck. -/
theorem test_consoleRead_stuck :
    faultOf ((st 1 [(0, 7)] 0 [comma] 0 []).withInput silent) = some .inputWait := by decide

/-! ### Witnesses: for each statement with hypotheses, values that meet them all together -/

theorem witness_DecodeFollowsCodeTable :
    0x3D#21 ∉ [0x3C#21, 0x3E#21, 0x2B#21, 0x2D#21, 0x2E#21, 0x2C#21, 0x5B#21, 0x5D#21] := by decide

theorem witness_DecodeOfEncode :
    WellFormed .bits8 (.skip 0xFF#21) = true ∧ WellFormed .bits21 .closeLoop = true := by decide

theorem witness_EncodeOfDecode :
    Character.legal .bits8 0xFF#21 = true ∧ Character.legal .bits21 0x10FFFF#21 = true := by decide

theorem witness_StepRunsDecodedInstruction :
    (st 2 [] 0 [gt, plus] 1 []).sticky.so = false ∧
      (st 2 [] 0 [gt, plus] 1 []).prog[(st 2 [] 0 [gt, plus] 1 []).pc]? = some (encode .increment) ∧
      WellFormed .bits8 .increment = true := by decide

theorem witness_StoppedEngineChangesNothing :
    ((st 2 [] 0 [gt] 0 []).raise .so).sticky.so = true ∧
      (st 2 [] 0 [gt] 1 []).prog.length ≤ (st 2 [] 0 [gt] 1 []).pc := by decide

theorem witness_ExecutedStepReturnsTrue :
    (st 2 [] 0 [gt] 0 []).sticky.so = false ∧
      (st 2 [] 0 [gt] 0 []).pc < (st 2 [] 0 [gt] 0 []).prog.length ∧
      step (st 2 [] 0 [gt] 0 []) = .next (st 2 [] 1 [gt] 1 []) ∧
      (st 2 [] 1 [gt] 1 []).sticky.so = false ∧
      (st 2 [] 1 [gt] 1 []).prog.length ≤ (st 2 [] 1 [gt] 1 []).pc :=
  ⟨by decide, by decide, rfl, by decide, by decide⟩

theorem witness_MoveLeftMovesCursor :
    (st 5 [] 0 [] 0 []).cursor < (st 5 [] 0 [] 0 []).tapeLen ∧
      (st 1 [] 0 [] 0 []).cursor < (st 1 [] 0 [] 0 []).tapeLen := by decide

theorem witness_MoveRightMovesCursor :
    (st 5 [] 4 [] 0 []).cursor < (st 5 [] 4 [] 0 []).tapeLen ∧
      0 < (st 1 [] 0 [] 0 []).tapeLen ∧ (st 1 [] 0 [] 0 []).cursor = 0 := by decide

theorem witness_IncrementAddsOne :
    (st 5 [(4, 255)] 4 [] 0 []).cursor < (st 5 [(4, 255)] 4 [] 0 []).tapeLen ∧
      (st 1 [] 0 [] 0 []).cursor < (st 1 [] 0 [] 0 []).tapeLen ∧
      (st 1 [] 0 [] 0 []).tape.read (st 1 [] 0 [] 0 []).cursor = 0#8 := by decide

theorem witness_DecrementSubtractsOne :
    (st 5 [(4, 1)] 4 [] 0 []).cursor < (st 5 [(4, 1)] 4 [] 0 []).tapeLen ∧
      (st 1 [] 0 [] 0 []).cursor < (st 1 [] 0 [] 0 []).tapeLen ∧
      (st 1 [] 0 [] 0 []).tape.read (st 1 [] 0 [] 0 []).cursor = 0#8 := by decide

theorem witness_ConsolePrintEmitsCell :
    (st 5 [(4, 0x41)] 4 [] 0 []).cursor < (st 5 [(4, 0x41)] 4 [] 0 []).tapeLen := by decide

theorem witness_ConsoleReadStoresReceived :
    (st 1 [(0, 7)] 0 [] 0 []).params.readImpl = .input ∧
      (st 1 [(0, 7)] 0 [] 0 []).cursor < (st 1 [(0, 7)] 0 [] 0 []).tapeLen ∧
      (∃ r, ((st 1 [(0, 7)] 0 [] 0 []).supplyInput 0x30#8).receive = some (0x30#8, r)) ∧
      ∃ r, (st 1 [(0, 7)] 0 [] 0 []).receive = some (Config.inputValue 0, r) :=
  ⟨by decide, by decide, ⟨_, rfl⟩, ⟨_, rfl⟩⟩

theorem witness_ReceiveTakesHostsValue :
    ((st 1 [] 0 [] 0 []).supplyInput 0x30#8).input.queue = 0x30#8 :: [] ∧
      (st 1 [] 0 [] 0 []).input.queue = [] ∧ (st 1 [] 0 [] 0 []).input.answering = true := by decide

theorem witness_ConsoleReadWaitsForHost :
    ((st 1 [] 0 [comma] 0 []).withInput silent).params.readImpl = .input ∧
      ((st 1 [] 0 [comma] 0 []).withInput silent).cursor < 1 ∧
      ((st 1 [] 0 [comma] 0 []).withInput silent).tapeLen = 1 ∧
      ((st 1 [] 0 [comma] 0 []).withInput silent).input.queue = [] ∧
      ((st 1 [] 0 [comma] 0 []).withInput silent).input.answering = false := by decide

theorem witness_ConsoleReadUnsupportedReports :
    (withParams (st 1 [] 0 [comma] 0 []) unsupported).params.readImpl = .unsupported ∧
      (withParams (st 1 [] 0 [comma] 0 []) unsupported).sticky.so = false ∧
      (withParams (st 1 [] 0 [comma] 0 []) unsupported).prog[0]? = some Config.codes.consoleRead := by
  decide

/-- The entered, the overflowing, the skipped and the unmatched `[`, the last in both modes. -/
theorem witness_OpenLoopFollowsRule :
    ((st 5 [(4, 1)] 4 [opn] 0 []).cursor < 5 ∧
      (st 5 [(4, 1)] 4 [opn] 0 []).tape.read 4 ≠ 0#8 ∧
      (st 5 [(4, 1)] 4 [opn] 0 []).params.stackDepth ≠ some 0) ∧
    ((withParams (st 5 [(4, 1)] 4 [opn] 0 [7]) depthOne).tape.read 4 ≠ 0#8 ∧
      (withParams (st 5 [(4, 1)] 4 [opn] 0 [7]) depthOne).params.stackDepth = some 1 ∧
      (withParams (st 5 [(4, 1)] 4 [opn] 0 [7]) depthOne).stack.length = 1) ∧
    ((st 5 [] 4 [opn, cls] 0 []).tape.read 4 = 0#8 ∧
      scanForward (st 5 [] 4 [opn, cls] 0 []).prog 0 = .found 1) ∧
    ((st 5 [] 4 [opn] 0 []).tape.read 4 = 0#8 ∧ scanForward (st 5 [] 4 [opn] 0 []).prog 0 = .notFound ∧
      (st 5 [] 4 [opn] 0 []).params.unmatchedOpenMode = .continues) ∧
    ((withParams (st 5 [] 4 [opn] 0 []) skipToEnd).tape.read 4 = 0#8 ∧
      scanForward (withParams (st 5 [] 4 [opn] 0 []) skipToEnd).prog 0 = .notFound ∧
      (withParams (st 5 [] 4 [opn] 0 []) skipToEnd).params.unmatchedOpenMode = .skipToEnd) := by
  decide

/-- The repeating, the unmatched, the leaving and the empty-stack zero-cell `]`. -/
theorem witness_CloseLoopFollowsRule :
    (st 5 [(4, 1)] 4 [cls] 0 [0]).cursor < (st 5 [(4, 1)] 4 [cls] 0 [0]).tapeLen ∧
    ((st 5 [(4, 1)] 4 [cls] 0 [0]).tape.read 4 ≠ 0#8 ∧
      (st 5 [(4, 1)] 4 [cls] 0 [0]).stack = [] ++ [0]) ∧
    ((st 5 [(4, 1)] 4 [cls] 0 []).tape.read 4 ≠ 0#8 ∧ (st 5 [(4, 1)] 4 [cls] 0 []).stack = []) ∧
    ((st 5 [] 4 [cls] 0 [0]).tape.read 4 = 0#8 ∧ (st 5 [] 4 [cls] 0 [0]).stack = [] ++ [0]) ∧
    ((st 5 [] 4 [cls] 0 []).tape.read 4 = 0#8 ∧ (st 5 [] 4 [cls] 0 []).stack = []) := by decide

theorem witness_UnmatchedOpenLoopReported :
    (st 5 [] 4 [opn, plus] 0 []).cursor < (st 5 [] 4 [opn, plus] 0 []).tapeLen ∧
      (st 5 [] 4 [opn, plus] 0 []).sticky.so = false ∧
      (st 5 [] 4 [opn, plus] 0 []).prog[0]? = some Config.codes.openLoop ∧
      (st 5 [] 4 [opn, plus] 0 []).tape.read 4 = 0#8 ∧
      scanForward (st 5 [] 4 [opn, plus] 0 []).prog 0 = .notFound ∧
      (st 5 [] 4 [opn, plus] 0 []).params.unmatchedOpenMode = .continues ∧
      (withParams (st 5 [] 4 [opn, plus] 0 []) skipToEnd).params.unmatchedOpenMode = .skipToEnd := by
  decide

theorem witness_UnmatchedCloseLoopReported :
    (st 5 [(4, 1)] 4 [cls] 0 []).cursor < (st 5 [(4, 1)] 4 [cls] 0 []).tapeLen ∧
      (st 5 [(4, 1)] 4 [cls] 0 []).sticky.so = false ∧
      (st 5 [(4, 1)] 4 [cls] 0 []).prog[0]? = some Config.codes.closeLoop ∧
      (st 5 [(4, 1)] 4 [cls] 0 []).stack = [] ∧ (st 5 [(4, 1)] 4 [cls] 0 []).tape.read 4 ≠ 0#8 ∧
      (st 5 [] 4 [cls] 0 []).tape.read 4 = 0#8 := by decide

theorem witness_CloseLoopJumpsToTop :
    (st 1 [(0, 1)] 0 [cls] 0 [1]).cursor < (st 1 [(0, 1)] 0 [cls] 0 [1]).tapeLen ∧
      (st 1 [(0, 1)] 0 [cls] 0 [1]).sticky.so = false ∧
      (st 1 [(0, 1)] 0 [cls] 0 [1]).prog[0]? = some Config.codes.closeLoop ∧
      (st 1 [(0, 1)] 0 [cls] 0 [1]).tape.read 0 ≠ 0#8 ∧
      (st 1 [(0, 1)] 0 [cls] 0 [1]).stack = [] ++ [1] ∧
      (st 1 [(0, 1)] 0 [cls] 0 [1]).prog.length ≤ 1 + 1 := by decide

theorem witness_StackOverflowFaultsEngine :
    ((withParams (st 1 [(0, 1)] 0 [plus, opn, opn] 2 [1]) depthOne).cursor < 1 ∧
      (withParams (st 1 [(0, 1)] 0 [plus, opn, opn] 2 [1]) depthOne).sticky.so = false ∧
      (withParams (st 1 [(0, 1)] 0 [plus, opn, opn] 2 [1]) depthOne).prog[2]? =
        some Config.codes.openLoop ∧
      (withParams (st 1 [(0, 1)] 0 [plus, opn, opn] 2 [1]) depthOne).tape.read 0 ≠ 0#8 ∧
      (withParams (st 1 [(0, 1)] 0 [plus, opn, opn] 2 [1]) depthOne).params.stackDepth = some 1) ∧
    (st 1 [(0, 1)] 0 [opn] 0 []).params.stackDepth = none ∧
      ∃ t, step (st 1 [(0, 1)] 0 [opn] 0 []) = .next t :=
  ⟨by decide, by decide, _, rfl⟩

theorem witness_SkipOnlyAdvances :
    (st 1 [] 0 [0x61#21] 0 []).sticky.so = false ∧
      (st 1 [] 0 [0x61#21] 0 []).prog[0]? = some 0x61#21 ∧
      Character.isOperation 0x61#21 = false := by decide

theorem balanced_pair : Balanced [opn, cls] := by
  constructor
  · intro n
    match n with
    | 0 => decide
    | 1 => decide
    | n + 2 => simp only [List.take_succ_cons, List.take_nil]; decide
  · decide

/-- The pair `[]` is a match, and `[` alone is not balanced. -/
theorem isMatch_pair : IsMatch [opn, cls] 0 1 := by
  refine ⟨by decide, by decide, by decide, balanced_pair, fun n h0 h1 => ?_⟩
  obtain rfl : n = 1 := by omega
  exact fun h => absurd h.2 (by decide)

theorem witness_ScanFindsSyntacticPartner :
    [opn, opn, cls, cls][0]? = some Config.codes.openLoop ∧
      scanForward [opn, opn, cls, cls] 0 = .found 3 ∧
      (st 1 [] 0 [opn, cls] 0 []).cursor < (st 1 [] 0 [opn, cls] 0 []).tapeLen ∧
      (st 1 [] 0 [opn, cls] 0 []).prog[0]? = some Config.codes.openLoop ∧
      (st 1 [] 0 [opn, cls] 0 []).tape.read 0 = 0#8 ∧
      IsMatch (st 1 [] 0 [opn, cls] 0 []).prog (st 1 [] 0 [opn, cls] 0 []).pc 1 :=
  ⟨by decide, by decide, by decide, by decide, by decide, isMatch_pair⟩

theorem witness_ScanMachineComputesScanForward : [opn, cls].length - 0 + 1 ≤ 3 := by decide

theorem witness_ScanDepthIsBounded :
    [opn, opn, cls, cls][0]? = some Config.codes.openLoop ∧ 0 < 2 ∧
      (ScanMachine.run [opn, opn, cls, cls] 2 (ScanMachine.start 0)).state = .scan 2 2 := by decide

theorem witness_RaiseSetsItsStatusBit : 5 ≠ 0 ∧ 5 ≠ Cause.so.code := by decide

/-- A step that sets each of the four bits; a command other than CONSTRUCT; a legal memory size. -/
theorem witness_StickyBitsOnlySetByEvents :
    after (fun t => t.sticky.uo) (st 1 [] 0 [opn] 0 []) = some true ∧
      after (fun t => t.sticky.uc) (st 1 [(0, 1)] 0 [cls] 0 []) = some true ∧
      after (fun t => t.sticky.ru) (withParams (st 1 [] 0 [comma] 0 []) unsupported) = some true ∧
      after (fun t => t.sticky.so) (withParams (st 1 [(0, 1)] 0 [opn] 0 [7]) depthOne) = some true ∧
      Command.load [] ≠ Command.construct 1 ∧ (State.reset.raise .uo).sticky.uo = true ∧
      (State.reset.raise .uc).sticky.uc = true ∧ (State.reset.raise .ru).sticky.ru = true ∧
      (State.reset.raise .so).sticky.so = true ∧ 1 ≠ 0 := by decide

theorem witness_FaultedOnlyByFullStack :
    after State.engineState (withParams (st 1 [(0, 1)] 0 [opn] 0 [7]) depthOne) = some .faulted ∧
      (withParams (st 1 [(0, 1)] 0 [opn] 0 [7]) depthOne).engineState ≠ .faulted ∧
      Command.step ≠ Command.construct 1 ∧ (State.reset.raise .so).engineState = .faulted ∧
      1 ≠ 0 := by decide

theorem witness_AtMostOneEventPerInstruction :
    ∃ t, exec .openLoop (st 1 [] 0 [opn] 0 []) = .next t ∧ t.sticky.uo = true := ⟨_, rfl, rfl⟩

theorem witness_HaltBitForetellsStep :
    State.reset.haltBit = true ∧ (st 1 [] 0 [gt] 0 []).haltBit = false ∧
      (∃ t, step (st 1 [] 0 [gt] 0 []) = .next t) ∧
      (∃ t, (st 1 [] 0 [gt] 0 []).command .step = (.bool true, t)) ∧
      ∃ t, (withParams (st 1 [(0, 1)] 0 [opn] 0 [7]) depthOne).command .step = (.bool false, t) :=
  ⟨by decide, by decide, ⟨_, rfl⟩, ⟨_, rfl⟩, _, rfl⟩

theorem witness_TapeReadsBackWrites : Memory.wf [(0, 1), (4, 2)] ∧ (4 : Nat) ≠ 0 := by decide

theorem witness_OnlyCurrentCellIsReached :
    Memory.read [(0, 9), (1, 7)] 1 = (st 2 [(1, 7)] 1 [] 0 []).tape.read 1 ∧
      (∃ t, exec .increment (st 2 [(1, 7)] 1 [] 0 []) = .next t) ∧
      ∃ u, exec .increment ((st 2 [(1, 7)] 1 [] 0 []).withTape [(0, 9), (1, 7)]) = .next u :=
  ⟨by decide, ⟨_, rfl⟩, ⟨_, rfl⟩⟩

theorem witness_ChannelEventsInStepOrder :
    (∃ t, step (st 1 [] 0 [dot] 0 []) = .next t) ∧ ∃ t, step (st 1 [] 0 [comma] 0 []) = .next t :=
  ⟨⟨_, rfl⟩, ⟨_, rfl⟩⟩

theorem witness_InvariantAtReset : 0 < 1 ∧ depthOne.stackDepth ≠ some 0 := by decide

/-- A state at its bounds that meets the invariant: the last cell, a full stack, `pc` at the last position. -/
theorem witness_inv : (withParams (st 2 [(1, 3)] 1 [opn, opn] 1 [0]) depthOne).Inv where
  tapeLen_pos := by decide
  cursor_lt := by decide
  tape_wf := by decide
  tape_in := by decide
  depth_pos := by decide
  prog_fits := by decide
  prog_legal := List.all_eq_true.1 (show [opn, opn].all (Character.legal .bits8) = true by decide)
  stack_within := by decide
  entries_fit := by decide
  pc_fits := by decide
  so_full := by decide
  ru_unsupported := by decide

theorem witness_StepKeepsInvariant :
    (withParams (st 2 [(1, 3)] 1 [opn, opn] 1 [0]) depthOne).Inv ∧
      ∃ t, step (withParams (st 2 [(1, 3)] 1 [opn, opn] 1 [0]) depthOne) = .next t :=
  ⟨witness_inv, _, rfl⟩

theorem witness_CommandsKeepInvariant :
    (withParams (st 2 [(1, 3)] 1 [opn, opn] 1 [0]) depthOne).Inv ∧
      ∀ src, Command.load [gt] = .load src → ∀ ch ∈ src,
        Character.legal (withParams (st 2 [(1, 3)] 1 [opn, opn] 1 [0]) depthOne).params.charBits ch =
          true :=
  ⟨witness_inv, fun src h => by
    cases h
    exact List.all_eq_true.1 (show [gt].all (Character.legal .bits8) = true by decide)⟩

theorem witness_StepCompletesOrWaits : (withParams (st 2 [(1, 3)] 1 [opn, opn] 1 [0]) depthOne).Inv :=
  witness_inv

theorem witness_ConfigurationAndProgramFixed :
    (∃ t, step (st 1 [] 0 [gt] 0 []) = .next t) ∧ Command.step ≠ Command.construct 1 ∧
      Command.step ≠ Command.load [] := ⟨⟨_, rfl⟩, by decide, by decide⟩

theorem witness_OnlyBracketsChangeStack :
    (∃ t, exec .openLoop (st 1 [(0, 1)] 0 [opn] 0 []) = .next t) ∧
      ∃ t, exec .closeLoop (st 1 [] 0 [cls] 0 [0]) = .next t := ⟨⟨_, rfl⟩, ⟨_, rfl⟩⟩

theorem witness_PcStaysWithinProgram :
    (st 1 [(0, 1)] 0 [opn, cls] 1 [0]).PcWithinProgram ∧
      (∃ t, step (st 1 [(0, 1)] 0 [opn, cls] 1 [0]) = .next t) ∧
      State.reset.stack = [] ∧ ∃ t, State.reset.load [gt] = some t :=
  ⟨⟨by decide, by decide⟩, ⟨_, rfl⟩, by decide, _, rfl⟩

/-- One older entry, 9, and one newer, at position 0. -/
theorem witness_NewEntriesStayOrdered :
    1 ≤ (st 1 [(0, 1)] 0 [opn, cls] 1 [9, 0]).stack.length ∧
      (st 1 [(0, 1)] 0 [opn, cls] 1 [9, 0]).NewEntriesOrdered 1 ∧
      (∃ t, step (st 1 [(0, 1)] 0 [opn, cls] 1 [9, 0]) = .next t) ∧
      ∃ t, (st 1 [(0, 1)] 0 [opn, cls] 1 [9, 0]).load [gt] = some t :=
  ⟨by decide, ⟨by decide, by decide⟩, ⟨_, rfl⟩, ⟨_, rfl⟩⟩

theorem witness_NewEntriesBoundedByOpens :
    (st 1 [(0, 1)] 0 [opn, cls] 1 [9, 0]).NewEntriesOrdered 1 := ⟨by decide, by decide⟩

theorem witness_DeepEnoughStackNeverFaults :
    (withParams (st 1 [(0, 1)] 0 [opn, cls] 0 []) depthOne).NewEntriesOrdered 0 ∧
      (withParams (st 1 [(0, 1)] 0 [opn, cls] 0 []) depthOne).params.stackDepth = some 1 ∧
      (withParams (st 1 [(0, 1)] 0 [opn, cls] 0 []) depthOne).prog.count Config.codes.openLoop ≤ 1 ∧
      (∃ t, step (withParams (st 1 [(0, 1)] 0 [opn, cls] 0 []) depthOne) = .next t) ∧
      (withParams (st 1 [(0, 1)] 0 [opn, cls] 0 []) depthOne).sticky.so = false :=
  ⟨⟨by decide, by decide⟩, by decide, by decide, ⟨_, rfl⟩, by decide⟩

theorem witness_WellFormedProgramStack :
    Balanced (st 1 [(0, 1)] 0 [opn, cls] 1 [0]).prog ∧
      (st 1 [(0, 1)] 0 [opn, cls] 1 [0]).StackEncloses ∧
      (∃ t, step (st 1 [(0, 1)] 0 [opn, cls] 1 [0]) = .next t) ∧
      (st 1 [] 0 [opn, cls] 2 []).StackEncloses ∧
      (st 1 [] 0 [opn, cls] 2 []).prog.length ≤ (st 1 [] 0 [opn, cls] 2 []).pc ∧
      State.reset.stack = [] ∧ ∃ t, State.reset.load [opn, cls] = some t :=
  ⟨balanced_pair, ⟨by decide, by decide⟩, ⟨_, rfl⟩, ⟨by decide, by decide⟩, by decide, by decide,
    _, rfl⟩

theorem witness_WellFormedBracketsMatch :
    Balanced (st 1 [] 0 [opn, cls] 0 []).prog ∧ (st 1 [] 0 [opn, cls] 0 []).StackEncloses ∧
      (st 1 [] 0 [opn, cls] 0 []).prog[0]? = some Config.codes.openLoop ∧
      (st 1 [] 0 [opn, cls] 1 [0]).StackEncloses ∧
      (st 1 [] 0 [opn, cls] 1 [0]).prog[1]? = some Config.codes.closeLoop :=
  ⟨balanced_pair, ⟨by decide, by decide⟩, by decide, ⟨by decide, by decide⟩, by decide⟩

theorem witness_ConstructResetsEverything :
    1 ≠ 0 ∧ [gt] ≠ [] ∧ ∃ u, State.reset.load [gt] = some u := ⟨by decide, by decide, _, rfl⟩

theorem witness_LoadReplacesProgramOnly :
    (∀ k, (withParams State.reset progOne).params.progMax = some k → [gt].length ≤ k) ∧
      (withParams State.reset progOne).params.progMax = some 1 ∧ 1 < [gt, gt].length :=
  ⟨fun k h => by
    cases h
    decide, by decide, by decide⟩

theorem witness_InspectReadsWithoutEffect :
    4 < (st 5 [] 0 [] 0 []).tapeLen ∧ (st 5 [] 0 [] 0 []).tapeLen ≤ 5 := by decide

theorem witness_RunRepeatsStep :
    StepsReturnTrue 1 (st 2 [] 0 [gt] 0 []) (st 2 [] 1 [gt] 1 []) ∧
      (st 2 [] 1 [gt] 1 []).stepCommand = (.bool false, st 2 [] 1 [gt] 1 []) ∧ 1 < 2 :=
  ⟨⟨_, rfl, rfl⟩, rfl, by decide⟩

end Sys2Proof.Tests
end

section
/-! What one step can do to every part of the state, said once: each completed execution is one of nine effects,
and the lemmas below read off what each effect does to the frame, the data, the stack, `pc` and `STATUS`. -/

namespace Sys2Proof.Machine

/-! ### The effects of an execution -/

/-- `t` follows `s` by an operation on the tape, the cursor or a channel, and the common advance (R69): no part
that steers the run changes. -/
structure State.StraightTo (s t : State) : Prop where
  params : t.params = s.params
  tapeLen : t.tapeLen = s.tapeLen
  prog : t.prog = s.prog
  stack : t.stack = s.stack
  sticky : t.sticky = s.sticky
  pc : t.pc = s.pc + 1
  cursor_lt : s.cursor < s.tapeLen → t.cursor < s.tapeLen
  tape : t.tape = s.tape ∨ ∃ v, t.tape = s.tape.write s.cursor v

/-- The ways an execution of an instruction can complete, with the next state of each. -/
inductive ExecEffect : Instr → State → State → Prop
  | straight {i s t} (h : s.StraightTo t) : ExecEffect i s t
  | unsupportedRead {s} (unsupported : s.params.readImpl = .unsupported) :
      ExecEffect .consoleRead s (s.raise .ru).advance
  | enter {s} (nonzero : s.currentCell ≠ 0#8) (room : s.params.stackDepth ≠ some s.stack.length) :
      ExecEffect .openLoop s (s.withStack (s.stack ++ [s.pc])).advance
  | overflow {s} (nonzero : s.currentCell ≠ 0#8)
      (full : s.params.stackDepth = some s.stack.length) : ExecEffect .openLoop s (s.raise .so)
  | skipLoop {s m} (zero : s.currentCell = 0#8) (found : scanForward s.prog s.pc = .found m) :
      ExecEffect .openLoop s (s.withPc m).advance
  | unmatchedOpen {s n} (zero : s.currentCell = 0#8)
      (notFound : scanForward s.prog s.pc = .notFound)
      (range : s.pc < s.prog.length → s.pc ≤ n ∧ n < s.prog.length) :
      ExecEffect .openLoop s ((s.raise .uo).withPc n).advance
  | repeatLoop {s l p} (nonzero : s.currentCell ≠ 0#8) (top : s.stack = l ++ [p]) :
      ExecEffect .closeLoop s (s.withPc p).advance
  | unmatchedClose {s} (nonzero : s.currentCell ≠ 0#8) (empty : s.stack = []) :
      ExecEffect .closeLoop s (s.raise .uc).advance
  | leave {s} (zero : s.currentCell = 0#8) : ExecEffect .closeLoop s s.pop.advance

theorem State.straightTo_advance (s : State) : s.StraightTo s.advance :=
  ⟨rfl, rfl, rfl, rfl, rfl, rfl, id, .inl rfl⟩

theorem State.straightTo_withCursor (s : State) {n : Nat}
    (h : s.cursor < s.tapeLen → n < s.tapeLen) : s.StraightTo (s.withCursor n).advance :=
  ⟨rfl, rfl, rfl, rfl, rfl, rfl, h, .inl rfl⟩

theorem State.straightTo_writeCell (s : State) (v : Byte) :
    s.StraightTo (s.writeCell v).advance :=
  ⟨rfl, rfl, rfl, rfl, rfl, rfl, id, .inr ⟨v, rfl⟩⟩

theorem State.straightTo_emit (s : State) (v : Byte) : s.StraightTo (s.emit v).advance :=
  ⟨rfl, rfl, rfl, rfl, rfl, rfl, id, .inl rfl⟩

theorem State.straightTo_receive {s r : State} {v : Byte} (h : s.receive = some (v, r)) :
    s.StraightTo (r.writeCell v).advance := by
  rw [(State.receive_eq_some h).1]
  exact ⟨rfl, rfl, rfl, rfl, rfl, rfl, id, .inr ⟨v, rfl⟩⟩

/-- Where R92 lets execution go on after a failed scan: not before the `[`, and within the program. -/
theorem State.afterUnmatchedOpen_pc_range {s : State} (h : s.pc < s.prog.length) :
    s.pc ≤ s.afterUnmatchedOpen.pc ∧ s.afterUnmatchedOpen.pc < s.prog.length := by
  unfold State.afterUnmatchedOpen
  split
  · exact ⟨Nat.le_refl _, h⟩
  · rw [State.withPc_pc]
    omega

theorem execOpenLoop_effect {s t : State} (h : exec .openLoop s = .next t) :
    ExecEffect .openLoop s t := by
  obtain ⟨-, ⟨hz, hf, rfl⟩ | ⟨hz, hf, rfl⟩ | ⟨hz, m, hm, rfl⟩ | ⟨hz, hn, rfl⟩⟩ :=
    execOpenLoop_next h
  · refine .enter hz fun hd => ?_
    rw [(Params.stackFull_iff _ _).2 hd] at hf
    cases hf
  · exact .overflow hz ((Params.stackFull_iff _ _).1 hf)
  · exact .skipLoop hz hm
  · rw [State.afterUnmatchedOpen_eq]
    exact .unmatchedOpen hz hn (State.afterUnmatchedOpen_pc_range (s := s.raise .uo))

theorem execCloseLoop_effect {s t : State} (h : exec .closeLoop s = .next t) :
    ExecEffect .closeLoop s t := by
  obtain ⟨-, ⟨hz, p, hp, rfl⟩ | ⟨hz, he, rfl⟩ | ⟨hz, rfl⟩⟩ := execCloseLoop_next h
  · exact .repeatLoop hz (List.dropLast_append_getLast? p hp).symm
  · exact .unmatchedClose hz he
  · exact .leave hz

/-- Every completed execution is one of the effects. -/
theorem exec_effect {i : Instr} {s t : State} (h : exec i s = .next t) : ExecEffect i s t := by
  cases i with
  | moveLeft =>
    rw [execMoveLeft_next h]
    refine .straight (s.straightTo_withCursor fun hc => ?_)
    split <;> omega
  | moveRight =>
    rw [execMoveRight_next h]
    refine .straight (s.straightTo_withCursor fun hc => ?_)
    split <;> omega
  | increment =>
    rw [(execIncrement_next h).2]
    exact .straight (s.straightTo_writeCell _)
  | decrement =>
    rw [(execDecrement_next h).2]
    exact .straight (s.straightTo_writeCell _)
  | consolePrint =>
    rw [(execConsolePrint_next h).2]
    exact .straight (s.straightTo_emit _)
  | consoleRead =>
    obtain ⟨-, -, v, r, hr, rfl⟩ | ⟨hu, rfl⟩ := execConsoleRead_next h
    · exact .straight (State.straightTo_receive hr)
    · exact .unsupportedRead hu
  | openLoop => exact execOpenLoop_effect h
  | closeLoop => exact execCloseLoop_effect h
  | skip ch =>
    rw [execSkip_next h]
    exact .straight s.straightTo_advance

/-- A step that ends in a next state changed nothing, or a Running engine executed the character at `pc`. The
instruction `i` is named apart from `decode ch`, so that the effect can be split into its cases. -/
theorem step_effect {s t : State} (h : step s = .next t) :
    t = s ∨ (s.sticky.so = false ∧ ∃ ch i, s.prog[s.pc]? = some ch ∧ decode ch = i ∧
      ExecEffect i s t) := by
  obtain ⟨-, rfl⟩ | ⟨ch, hf, he⟩ := step_next_cases h
  · exact .inl rfl
  · obtain ⟨hso, hch⟩ := State.fetch_eq_some.1 hf
    exact .inr ⟨hso, ch, _, hch, rfl, exec_effect he⟩

theorem fetched_openLoop {s : State} {ch : Character} (hch : s.prog[s.pc]? = some ch)
    (hi : decode ch = .openLoop) : s.prog[s.pc]? = some Config.codes.openLoop := by
  rw [hch, (decode_openLoop_iff ch).1 hi]

theorem fetched_closeLoop {s : State} {ch : Character} (hch : s.prog[s.pc]? = some ch)
    (hi : decode ch = .closeLoop) : s.prog[s.pc]? = some Config.codes.closeLoop := by
  rw [hch, (decode_closeLoop_iff ch).1 hi]

theorem fetched_consoleRead {s : State} {ch : Character} (hch : s.prog[s.pc]? = some ch)
    (hi : decode ch = .consoleRead) : s.prog[s.pc]? = some Config.codes.consoleRead := by
  rw [hch, (decode_consoleRead_iff ch).1 hi]

theorem pc_lt_of_fetched {s : State} {ch : Character} (hch : s.prog[s.pc]? = some ch) :
    s.pc < s.prog.length := (List.getElem?_eq_some_iff.1 hch).1

/-! ### What the effects leave unchanged -/

/-- No effect touches the configuration or the program (R22, R26). -/
theorem ExecEffect.frame {i : Instr} {s t : State} (e : ExecEffect i s t) :
    t.tapeLen = s.tapeLen ∧ t.params = s.params ∧ t.prog = s.prog := by
  cases e with
  | straight h => exact ⟨h.tapeLen, h.params, h.prog⟩
  | _ => exact ⟨rfl, rfl, rfl⟩

theorem step_frame {s t : State} (h : step s = .next t) :
    t.tapeLen = s.tapeLen ∧ t.params = s.params ∧ t.prog = s.prog := by
  obtain rfl | ⟨-, _, _, -, -, e⟩ := step_effect h
  · exact ⟨rfl, rfl, rfl⟩
  · exact e.frame

/-- Every effect keeps a cursor that names a cell (R23). -/
theorem ExecEffect.cursor_lt {i : Instr} {s t : State} (e : ExecEffect i s t)
    (hc : s.cursor < s.tapeLen) : t.cursor < s.tapeLen := by
  cases e with
  | straight h => exact h.cursor_lt hc
  | _ => exact hc

/-- The tape stays, or the current cell alone is written (R44). -/
theorem ExecEffect.tape {i : Instr} {s t : State} (e : ExecEffect i s t) :
    t.tape = s.tape ∨ ∃ v, t.tape = s.tape.write s.cursor v := by
  cases e with
  | straight h => exact h.tape
  | _ => exact .inl rfl

/-! ### The loop-start stack and `pc` -/

/-- Only an entered `[` pushes, and only where there is room; only a left `]` pops (R29). -/
theorem ExecEffect.stack {i : Instr} {s t : State} (e : ExecEffect i s t) :
    t.stack = s.stack ∨
      (i = .openLoop ∧ s.currentCell ≠ 0#8 ∧ s.params.stackDepth ≠ some s.stack.length ∧
        t.stack = s.stack ++ [s.pc]) ∨
      (i = .closeLoop ∧ s.currentCell = 0#8 ∧ t.stack = s.stack.dropLast) := by
  cases e with
  | straight h => exact .inl h.stack
  | enter nonzero room => exact .inr (.inl ⟨rfl, nonzero, room, rfl⟩)
  | leave zero => exact .inr (.inr ⟨rfl, zero, rfl⟩)
  | _ => exact .inl rfl

/-- From a position within the program an effect leaves `pc` where it is, moves it forward within the program or
to its end, or jumps to one after the stack's top and leaves the stack (R69, R88, R89, R92). -/
theorem ExecEffect.pc {i : Instr} {s t : State} (e : ExecEffect i s t)
    (hpc : s.pc < s.prog.length) :
    (t.pc = s.pc ∧ t.stack = s.stack) ∨ (s.pc < t.pc ∧ t.pc ≤ s.prog.length) ∨
      ∃ l p, s.stack = l ++ [p] ∧ t.pc = p + 1 ∧ t.stack = s.stack := by
  cases e with
  | straight h =>
    have := h.pc
    exact .inr (.inl (by omega))
  | overflow => exact .inl ⟨rfl, rfl⟩
  | skipLoop zero found =>
    have := scanForward_found_range found
    exact .inr (.inl ⟨Nat.lt_succ_of_le this.1, this.2⟩)
  | unmatchedOpen zero notFound range =>
    have := range hpc
    exact .inr (.inl ⟨Nat.lt_succ_of_le this.1, this.2⟩)
  | repeatLoop nonzero top => exact .inr (.inr ⟨_, _, top, rfl, rfl⟩)
  | _ => exact .inr (.inl ⟨Nat.lt_succ_self _, hpc⟩)

/-! ### The sticky bits -/

/-- The sticky bit that an event sets (R35). -/
def StickyBits.bit (b : StickyBits) : Cause → Bool
  | .uo => b.uo
  | .uc => b.uc
  | .ru => b.ru
  | .so => b.so

theorem StickyBits.bit_set (b : StickyBits) (c d : Cause) :
    (b.set c).bit d = (b.bit d || decide (c = d)) := by
  rw [StickyBits.set_eq]
  cases d <;> rfl

/-- The next step of a Running engine is one that the event `c` names (R118 to R121). -/
def State.EventDue (s : State) : Cause → Prop
  | .uo => s.prog[s.pc]? = some Config.codes.openLoop ∧ s.tape.read s.cursor = 0#8 ∧
      scanForward s.prog s.pc = .notFound
  | .uc => s.prog[s.pc]? = some Config.codes.closeLoop ∧ s.tape.read s.cursor ≠ 0#8 ∧
      s.stack = []
  | .ru => s.prog[s.pc]? = some Config.codes.consoleRead ∧ s.params.readImpl = .unsupported
  | .so => s.prog[s.pc]? = some Config.codes.openLoop ∧ s.tape.read s.cursor ≠ 0#8 ∧
      s.params.stackDepth = some s.stack.length

/-- A step leaves the sticky bits, or raises one event that is due; StackOverflow changes nothing else
(R120). -/
theorem step_sticky {s t : State} (h : step s = .next t) :
    t.sticky = s.sticky ∨
      ∃ c, s.EventDue c ∧ t.sticky = s.sticky.set c ∧ (c = .so → t = s.raise .so) := by
  obtain rfl | ⟨-, ch, i, hch, hi, e⟩ := step_effect h
  · exact .inl rfl
  cases e with
  | straight h => exact .inl h.sticky
  | unsupportedRead unsupported =>
    exact .inr ⟨.ru, ⟨fetched_consoleRead hch hi, unsupported⟩, rfl, nofun⟩
  | overflow nonzero full =>
    exact .inr ⟨.so, ⟨fetched_openLoop hch hi, nonzero, full⟩, rfl, fun _ => rfl⟩
  | unmatchedOpen zero notFound _ =>
    exact .inr ⟨.uo, ⟨fetched_openLoop hch hi, zero, notFound⟩, rfl, nofun⟩
  | unmatchedClose nonzero empty =>
    exact .inr ⟨.uc, ⟨fetched_closeLoop hch hi, nonzero, empty⟩, rfl, nofun⟩
  | _ => exact .inl rfl

/-- A sticky bit that is set after a step was set before it, or its event was due. -/
theorem step_bit_set {s t : State} (c : Cause) (h : step s = .next t)
    (hc : t.sticky.bit c = true) : s.sticky.bit c = true ∨ s.EventDue c := by
  obtain e | ⟨d, hd, e, -⟩ := step_sticky h
  · exact .inl (e ▸ hc)
  · rw [e, StickyBits.bit_set, Bool.or_eq_true, decide_eq_true_eq] at hc
    exact hc.imp_right fun (hdc : d = c) => hdc ▸ hd

theorem step_keeps_bit (c : Cause) (s t : State) (hc : s.sticky.bit c = true)
    (h : step s = .next t) : t.sticky.bit c = true := by
  obtain e | ⟨d, -, e, -⟩ := step_sticky h
  · rwa [e]
  · rw [e, StickyBits.bit_set, hc, Bool.true_or]

/-- No command but CONSTRUCT clears a sticky bit (R37). -/
theorem State.command_keeps_bit (c : Cause) {s : State} {cmd : Command}
    (hcmd : ∀ n, cmd ≠ .construct n) (hc : s.sticky.bit c = true) :
    (s.command cmd).2.sticky.bit c = true := by
  refine State.command_keeps (P := fun t => t.sticky.bit c = true) (step_keeps_bit c) hc hcmd ?_
  intro src t _ hl
  rw [(State.load_eq_some.1 hl).2]
  exact hc

/-! ### The invariant -/

theorem Params.stackWithin_iff (p : Params) (n : Nat) :
    Params.stackWithin p n = true ↔ ∀ d, p.stackDepth = some d → n ≤ d := by
  unfold Params.stackWithin
  split <;> simp_all

/-- An effect keeps the stack within `STACK_DEPTH` (R20). -/
theorem ExecEffect.stack_within {i : Instr} {s t : State} (e : ExecEffect i s t)
    (h : Params.stackWithin s.params s.stack.length = true) :
    Params.stackWithin s.params t.stack.length = true := by
  rw [Params.stackWithin_iff] at h ⊢
  intro d hd
  have hle := h d hd
  obtain he | ⟨-, -, hroom, he⟩ | ⟨-, -, he⟩ := e.stack
  · rwa [he]
  · have hne : d ≠ s.stack.length := fun hn => hroom (hn ▸ hd)
    rw [he, List.length_append, List.length_singleton]
    omega
  · rw [he, List.length_dropLast]
    omega

/-- Every entry after an effect was there before, or is the position just executed (R29). -/
theorem ExecEffect.mem_stack {i : Instr} {s t : State} (e : ExecEffect i s t) {p : Nat}
    (h : p ∈ t.stack) : p ∈ s.stack ∨ p = s.pc := by
  obtain he | ⟨-, -, -, he⟩ | ⟨-, -, he⟩ := e.stack <;> rw [he] at h
  · exact .inl h
  · simpa using h
  · exact .inl (List.mem_of_mem_dropLast h)

/-- After an effect `pc` is within the program or at its end, or one after a stack entry (R25). -/
theorem ExecEffect.pc_bound {i : Instr} {s t : State} (e : ExecEffect i s t)
    (hpc : s.pc < s.prog.length) :
    t.pc ≤ s.prog.length ∨ ∃ p ∈ s.stack, t.pc = p + 1 := by
  obtain ⟨he, -⟩ | ⟨-, hle⟩ | ⟨l, p, hs, he, -⟩ := e.pc hpc
  · exact .inl (by omega)
  · exact .inl hle
  · exact .inr ⟨p, by simp [hs], he⟩

theorem ExecEffect.tape_wf {i : Instr} {s t : State} (e : ExecEffect i s t)
    (h : Memory.wf s.tape) : Memory.wf t.tape := by
  obtain he | ⟨v, he⟩ := e.tape <;> rw [he]
  · exact h
  · exact Memory.wf_write _ _ _ h

theorem ExecEffect.tape_in {i : Instr} {s t : State} (e : ExecEffect i s t)
    (hc : s.cursor < s.tapeLen) (h : ∀ c ∈ s.tape, c.1 < s.tapeLen) :
    ∀ c ∈ t.tape, c.1 < s.tapeLen := by
  intro c hm
  obtain he | ⟨v, he⟩ := e.tape <;> rw [he] at hm
  · exact h c hm
  · obtain ⟨rfl, -⟩ | hm := Memory.mem_write _ _ _ hm
    · exact hc
    · exact h c hm

/-- An effect that sets SO leaves a finite stack that is full (R41). -/
theorem ExecEffect.so_full {i : Instr} {s t : State} (e : ExecEffect i s t)
    (hso : s.sticky.so = false) (h : t.sticky.so = true) :
    s.params.stackDepth = some t.stack.length := by
  cases e with
  | overflow nonzero full => exact full
  | straight hs =>
    rw [hs.sticky, hso] at h
    cases h
  | _ =>
    have h : s.sticky.so = true := h
    rw [hso] at h
    cases h

/-- Every step keeps the ranges and bounds of the state. -/
theorem step_keeps_inv {s t : State} (hi : s.Inv) (h : step s = .next t) : t.Inv := by
  obtain ⟨htl, hp, hg⟩ := step_frame h
  have hru : t.sticky.ru = true → s.params.readImpl = .unsupported := fun hr =>
    (step_bit_set .ru h hr).elim hi.ru_unsupported And.right
  obtain rfl | ⟨hso, ch, i, hch, -, e⟩ := step_effect h
  · exact hi
  have hpc := pc_lt_of_fetched hch
  refine
    { tapeLen_pos := htl ▸ hi.tapeLen_pos
      cursor_lt := htl ▸ e.cursor_lt hi.cursor_lt
      tape_wf := e.tape_wf hi.tape_wf
      tape_in := htl ▸ e.tape_in hi.cursor_lt hi.tape_in
      depth_pos := hp ▸ hi.depth_pos
      prog_fits := by rw [hp, hg]; exact hi.prog_fits
      prog_legal := by rw [hp, hg]; exact hi.prog_legal
      stack_within := hp ▸ e.stack_within hi.stack_within
      entries_fit := fun p hm => ?_
      pc_fits := ?_
      so_full := fun hs => hp ▸ e.so_full hso hs
      ru_unsupported := hp ▸ hru }
  · rw [hp]
    obtain hm | rfl := e.mem_stack hm
    · exact hi.entries_fit p hm
    · exact Params.fitsProgram_mono hpc hi.prog_fits
  · rw [hp]
    obtain hle | ⟨p, hm, he⟩ := e.pc_bound hpc
    · exact Params.fitsProgram_mono hle hi.prog_fits
    · exact he ▸ hi.entries_fit p hm

/-- Settles O38: each part of the invariant is kept by every effect a step can have. -/
theorem stepKeepsInvariant : Obligations.StepKeepsInvariant :=
  fun _ _ => step_keeps_inv

/-! ### STATUS -/

/-- Settles O29: a step raises only an event that is due, every command but CONSTRUCT keeps the bits, and
CONSTRUCT gives them their reset value. -/
theorem stickyBitsOnlySetByEvents : Obligations.StickyBitsOnlySetByEvents := by
  refine ⟨fun s t h => ⟨step_bit_set .uo h, step_bit_set .uc h, step_bit_set .ru h,
    step_bit_set .so h⟩, fun s c hc => ?_, fun s n hn => ?_⟩
  · exact ⟨s.command_keeps_bit .uo hc, s.command_keeps_bit .uc hc, s.command_keeps_bit .ru hc,
      s.command_keeps_bit .so hc⟩
  · rw [State.command_construct s hn]
    rfl

/-- A step sets SO only as a StackOverflow that is due, and then changes nothing else (R120). -/
theorem step_sets_so {s t : State} (h : step s = .next t) (hs : s.sticky.so = false)
    (ht : t.sticky.so = true) : s.EventDue .so ∧ t = s.raise .so := by
  obtain e | ⟨c, hc, e, hraise⟩ := step_sticky h
  · rw [e, hs] at ht
    cases ht
  · obtain rfl : c = .so := by
      have hb : (s.sticky.set c).bit .so = true := e ▸ ht
      rw [StickyBits.bit_set] at hb
      simpa [StickyBits.bit, hs] using hb
    exact ⟨hc, hraise rfl⟩

theorem State.command_load_sticky (s : State) (src : List Character) :
    (s.command (.load src)).2.sticky = s.sticky := by
  cases e : s.load src with
  | none => simp only [State.command, e]
  | some t => simp only [State.command, e, (State.load_eq_some.1 e).2, State.withPc_sticky,
      State.withProg_sticky]

/-- Settles O30: SO is set only by the push onto a full stack, and Faulted is SO. -/
theorem faultedOnlyByFullStack : Obligations.FaultedOnlyByFullStack := by
  refine ⟨fun s t h hs ht => ?_, fun s c hc hs => ?_, State.command_load_sticky,
    fun s n hn => ?_⟩
  · rw [Ne, State.engineState_faulted, Bool.not_eq_true] at hs
    rw [State.engineState_faulted] at ht
    obtain ⟨⟨hch, hz, hfull⟩, ht⟩ := step_sets_so h hs ht
    exact ⟨_, hfull, rfl, hch, hz, ht⟩
  · rw [State.engineState_faulted] at hs ⊢
    exact s.command_keeps_bit .so hc hs
  · rw [State.command_construct s hn, Ne, State.engineState_faulted]
    exact Bool.false_ne_true

theorem State.haltBit_eq_false_iff {s : State} : s.haltBit = false ↔ s.engineState = .running := by
  rw [State.engineState_running]
  simp [State.haltBit, and_comm]

theorem State.haltBit_eq_true_iff {s : State} :
    s.haltBit = true ↔ s.prog.length ≤ s.pc ∨ s.sticky.so = true := by
  simp [State.haltBit]

/-- A STEP of a Running engine that completes returns true unless SO is then set (R68, R70). -/
theorem State.stepCommand_running {s t : State} (hr : s.engineState = .running)
    (h : step s = .next t) : s.stepCommand = (.bool (!t.sticky.so), t) := by
  simp [State.stepCommand, h, State.stepReturns, hr]

/-- A STEP of a stopped engine returns false and changes nothing (R65). -/
theorem State.stepCommand_stopped {s : State} (hs : s.haltBit = true) :
    s.stepCommand = (.bool false, s) := by
  have hr : s.engineState ≠ .running := fun hr => by
    rw [State.haltBit_eq_false_iff.2 hr] at hs
    cases hs
  have h : step s = .next s :=
    step_of_no_fetch (State.fetch_eq_none.2 (State.haltBit_eq_true_iff.1 hs).symm)
  simp [State.stepCommand, h, State.stepReturns, hr]

/-- What a Bool of STEP tells: the engine was stopped and nothing changed, or it was Running and the Bool is
whether SO stayed 0. -/
theorem State.stepCommand_eq_bool {s t : State} {b : Bool} (h : s.stepCommand = (.bool b, t)) :
    (s.haltBit = true ∧ b = false ∧ t = s) ∨ (s.haltBit = false ∧ b = !t.sticky.so) := by
  cases hh : s.haltBit with
  | true =>
    rw [State.stepCommand_stopped hh] at h
    cases h
    exact .inl ⟨rfl, rfl, rfl⟩
  | false =>
    have hr := State.haltBit_eq_false_iff.1 hh
    cases hs : step s with
    | next u =>
      rw [State.stepCommand_running hr hs] at h
      cases h
      exact .inr ⟨rfl, rfl⟩
    | fault f => simp [State.stepCommand, hs] at h
    | refused r => simp [State.stepCommand, hs] at h

/-- A one-character program of Skip: its STEP returns true and reaches the end of the program (R70). -/
def lastSkipState : State := State.reset.withProg [0x61#21]

/-- A `[` on a nonzero cell with a full stack of depth 1: its STEP returns false (R68, R120). -/
def fullStackState : State :=
  { State.constructed { Params.default with stackDepth := some 1 } 1 with
    tape := [(0, 1#8)], prog := [Config.codes.openLoop], stack := [0] }

/-- Settles O32: by what a STEP answers for a stopped and for a Running engine, with a run for each
exception. -/
theorem haltBitForetellsStep : Obligations.HaltBitForetellsStep := by
  refine ⟨fun _ => State.haltBit_eq_false_iff, fun _ => State.stepCommand_stopped,
    fun s t hh => State.stepCommand_running (State.haltBit_eq_false_iff.1 hh),
    fun s t h => ?_, fun s t h => ?_,
    ⟨lastSkipState, lastSkipState.advance, rfl, rfl⟩,
    ⟨fullStackState, fullStackState.raise .so, rfl, rfl⟩⟩
  · obtain ⟨hh, -, rfl⟩ | ⟨-, hb⟩ := State.stepCommand_eq_bool h
    · exact hh
    · exact State.haltBit_eq_true_iff.2 (.inr (by simpa using hb))
  · obtain ⟨-, hb, -⟩ | ⟨-, hb⟩ := State.stepCommand_eq_bool h
    · cases hb
    · have hso : t.sticky.so = false := by simpa using hb
      simp [State.haltBit_eq_true_iff, hso]

/-! ### No instruction reads STATUS -/

theorem mapNext_onCell (f : State → State) (s : State) (k : Result) :
    mapNext f (s.onCell k) = s.onCell (mapNext f k) := by
  unfold State.onCell
  split <;> rfl

/-- Operations on the current cell that agree, sticky bits apart, still do so with other sticky bits before. -/
theorem mapNext_onCell_withSticky {f : State → State} {s : State} {b : StickyBits} {k k' : Result}
    (h : mapNext f k = mapNext f k') :
    mapNext f ((s.withSticky b).onCell k) = mapNext f (s.onCell k') := by
  rw [mapNext_onCell, mapNext_onCell, h]
  rfl

theorem State.receive_withSticky (s : State) (b : StickyBits) :
    (s.withSticky b).receive = s.receive.map fun r => (r.1, r.2.withSticky b) := by
  unfold State.receive
  simp only [State.withSticky_input]
  split
  · rfl
  · split <;> rfl

theorem State.push_withSticky (s : State) (b : StickyBits) (p : Nat) :
    (s.withSticky b).push p = (s.push p).map (·.withSticky b) := by
  unfold State.push
  simp only [State.withSticky_params, State.withSticky_stack]
  split <;> rfl

theorem State.afterUnmatchedOpen_withSticky (s : State) (b : StickyBits) :
    (s.withSticky b).afterUnmatchedOpen = s.afterUnmatchedOpen.withSticky b := by
  unfold State.afterUnmatchedOpen
  simp only [State.withSticky_params]
  split <;> rfl

theorem exec_consoleRead_withSticky (s : State) (b z : StickyBits) :
    mapNext (·.withSticky z) (exec .consoleRead (s.withSticky b)) =
      mapNext (·.withSticky z) (exec .consoleRead s) := by
  simp only [exec, execConsoleRead, State.withSticky_params]
  split
  · refine mapNext_onCell_withSticky ?_
    rw [State.receive_withSticky]
    cases s.receive <;> rfl
  · rfl

theorem exec_openLoop_withSticky (s : State) (b z : StickyBits) :
    mapNext (·.withSticky z) (exec .openLoop (s.withSticky b)) =
      mapNext (·.withSticky z) (exec .openLoop s) := by
  refine mapNext_onCell_withSticky ?_
  rw [show (s.withSticky b).cellNonzero = s.cellNonzero from rfl]
  cases s.cellNonzero with
  | true =>
    simp only [State.push_withSticky, State.withSticky_pc]
    cases s.push s.pc <;> rfl
  | false =>
    simp only [State.withSticky_prog, State.withSticky_pc]
    cases scanForward s.prog s.pc with
    | found m => rfl
    | notFound =>
      simp only [State.raise, State.afterUnmatchedOpen_withSticky]
      rfl

theorem exec_closeLoop_withSticky (s : State) (b z : StickyBits) :
    mapNext (·.withSticky z) (exec .closeLoop (s.withSticky b)) =
      mapNext (·.withSticky z) (exec .closeLoop s) := by
  refine mapNext_onCell_withSticky ?_
  rw [show (s.withSticky b).cellNonzero = s.cellNonzero from rfl,
    show (s.withSticky b).top = s.top from rfl]
  cases s.cellNonzero with
  | true => cases s.top <;> rfl
  | false => rfl

/-- Settles O33: for each instruction, what its meaning reads does not depend on the sticky bits. -/
theorem noInstructionReadsStatus : Obligations.NoInstructionReadsStatus := by
  intro i s b z
  cases i with
  | moveLeft => rfl
  | moveRight => rfl
  | increment => exact mapNext_onCell_withSticky rfl
  | decrement => exact mapNext_onCell_withSticky rfl
  | consolePrint => exact mapNext_onCell_withSticky rfl
  | consoleRead => exact exec_consoleRead_withSticky s b z
  | openLoop => exact exec_openLoop_withSticky s b z
  | closeLoop => exact exec_closeLoop_withSticky s b z
  | skip ch => rfl

/-! ### Configuration, stack and program counter -/

/-- Settles O41: the effects' frame, carried through the commands by the induction over RUN. -/
theorem configurationAndProgramFixed : Obligations.ConfigurationAndProgramFixed := by
  refine ⟨fun s t => step_frame, fun s c hc => ?_, fun s c hc hl => ?_⟩
  · refine State.command_keeps (P := fun t => t.tapeLen = s.tapeLen ∧ t.params = s.params)
      (fun u v ⟨htl, hp⟩ h => ?_) ⟨rfl, rfl⟩ hc fun src t _ h => ?_
    · obtain ⟨htl', hp', -⟩ := step_frame h
      exact ⟨htl'.trans htl, hp'.trans hp⟩
    · rw [(State.load_eq_some.1 h).2]
      exact ⟨rfl, rfl⟩
  · exact State.command_keeps (P := fun t => t.prog = s.prog)
      (fun u v hu h => (step_frame h).2.2.trans hu) rfl hc fun src _ he => absurd he (hl src)

/-- Settles O42: of the effects, only an entered `[` and a left `]` with an entry change the stack. -/
theorem onlyBracketsChangeStack : Obligations.OnlyBracketsChangeStack := by
  intro i s t h
  obtain he | ⟨hi, hz, -, he⟩ | ⟨hi, hz, he⟩ := (exec_effect h).stack
  · exact .inl he
  · exact .inr (.inl ⟨hi, hz, he⟩)
  · obtain hnil | ⟨l, p, hl⟩ := s.stack.eq_nil_or_concat
    · exact .inl (by rw [he, hnil, List.dropLast_nil])
    · exact .inr (.inr ⟨hi, hz, p, by simp [he, hl]⟩)

/-- Settles O43: a jump leads to one after a stack entry, and an entry is a position of the program. -/
theorem pcStaysWithinProgram : Obligations.PcStaysWithinProgram := by
  refine ⟨fun s t ⟨hle, hst⟩ h => ?_, fun s t src hs h => ?_⟩
  · obtain rfl | ⟨-, ch, i, hch, -, e⟩ := step_effect h
    · exact ⟨hle, hst⟩
    have hpc := pc_lt_of_fetched hch
    rw [State.PcWithinProgram, e.frame.2.2]
    refine ⟨?_, fun p hp => ?_⟩
    · obtain hb | ⟨p, hp, hb⟩ := e.pc_bound hpc
      · exact hb
      · exact hb ▸ hst p hp
    · obtain hp | rfl := e.mem_stack hp
      · exact hst p hp
      · exact hpc
  · rw [(State.load_eq_some.1 h).2]
    exact ⟨Nat.zero_le _, by simp [hs]⟩

/-! ### The entries pushed since a LOAD -/

/-- The order of the new entries survives in any sublist of them that still lies below `pc`. -/
theorem State.NewEntriesOrdered.of_sublist {k k' : Nat} {s t : State} (h : s.NewEntriesOrdered k)
    (hsub : (t.stack.drop k').Sublist (s.stack.drop k)) (hprog : t.prog = s.prog)
    (hpc : ∀ e ∈ t.stack.drop k', e < t.pc) : t.NewEntriesOrdered k' :=
  ⟨h.1.sublist hsub, fun e he => ⟨hpc e he, hprog ▸ (h.2 e (hsub.subset he)).2⟩⟩

/-- The new entries after a push of `pc` at a `[`. -/
theorem State.NewEntriesOrdered.push {k : Nat} {s t : State} (h : s.NewEntriesOrdered k)
    (hk : k ≤ s.stack.length) (hopen : s.prog[s.pc]? = some Config.codes.openLoop)
    (hprog : t.prog = s.prog) (hstack : t.stack = s.stack ++ [s.pc]) (hpc : s.pc < t.pc) :
    t.NewEntriesOrdered k := by
  obtain ⟨hord, hnew⟩ := h
  rw [State.NewEntriesOrdered, hprog, hstack, List.drop_append_of_le_length hk]
  refine ⟨List.pairwise_append.2 ⟨hord, List.pairwise_singleton _ _, fun e he p hp => ?_⟩,
    fun e he => ?_⟩
  · rw [List.mem_singleton.1 hp]
    exact (hnew e he).1
  · obtain he | he := List.mem_append.1 he
    · exact ⟨Nat.lt_trans (hnew e he).1 hpc, (hnew e he).2⟩
    · rw [List.mem_singleton.1 he]
      exact ⟨hpc, hopen⟩

/-- In a rising list no entry above the lowest `k` exceeds the last. -/
theorem le_last_of_rising {l : List Nat} {p k : Nat} (h : ((l ++ [p]).drop k).Pairwise (· < ·))
    {e : Nat} (he : e ∈ (l ++ [p]).drop k) : e ≤ p := by
  by_cases hk : k ≤ l.length
  · rw [List.drop_append_of_le_length hk] at h he
    obtain he | he := List.mem_append.1 he
    · exact Nat.le_of_lt ((List.pairwise_append.1 h).2.2 e he p (List.mem_singleton_self p))
    · exact Nat.le_of_eq (List.mem_singleton.1 he)
  · rw [List.drop_eq_nil_of_le (by simp; omega)] at he
    cases he

/-- Above the entries that a pop leaves of the lowest `k` stand no entries but those above `k` before. -/
theorem drop_dropLast_sublist (l : List Nat) (k : Nat) :
    (l.dropLast.drop (min k l.dropLast.length)).Sublist (l.drop k) := by
  obtain hk | hk := Nat.le_total k l.dropLast.length
  · rw [Nat.min_eq_left hk]
    exact (List.dropLast_sublist l).drop k
  · rw [Nat.min_eq_right hk, List.drop_length]
    exact List.nil_sublist _

/-- An effect that leaves the stack keeps the new entries below `pc`: it moves `pc` forward, or to one after the
highest of them. -/
theorem ExecEffect.new_entries_lt_pc {i : Instr} {s t : State} {k : Nat} (e : ExecEffect i s t)
    (hpc : s.pc < s.prog.length) (h : s.NewEntriesOrdered k) :
    ∀ p ∈ s.stack.drop k, p < t.pc := by
  intro p hp
  have hlt := (h.2 p hp).1
  obtain ⟨he, -⟩ | ⟨hgt, -⟩ | ⟨l, q, hs, he, -⟩ := e.pc hpc
  · rwa [he]
  · exact Nat.lt_trans hlt hgt
  · rw [he]
    exact Nat.lt_succ_of_le (le_last_of_rising (hs ▸ h.1) (hs ▸ hp))

theorem ExecEffect.keeps_new_entries {i : Instr} {s t : State} {k : Nat} (e : ExecEffect i s t)
    (hpc : s.pc < s.prog.length)
    (hopen : i = .openLoop → s.prog[s.pc]? = some Config.codes.openLoop)
    (hk : k ≤ s.stack.length) (h : s.NewEntriesOrdered k) :
    t.NewEntriesOrdered (min k t.stack.length) ∧
      t.stack.take (min k t.stack.length) = s.stack.take (min k t.stack.length) := by
  have hprog := e.frame.2.2
  have hlt := e.new_entries_lt_pc hpc h
  obtain he | ⟨hi, -, -, he⟩ | ⟨-, -, he⟩ := e.stack
  · rw [he, Nat.min_eq_left hk]
    exact ⟨h.of_sublist (he ▸ List.Sublist.refl _) hprog (he ▸ hlt), rfl⟩
  · have hk' : k ≤ t.stack.length := by
      rw [he, List.length_append]
      omega
    have hgt : s.pc < t.pc := by
      obtain ⟨-, hs⟩ | ⟨hgt, -⟩ | ⟨-, -, -, -, hs⟩ := e.pc hpc
      · simp [he] at hs
      · exact hgt
      · simp [he] at hs
    rw [Nat.min_eq_left hk']
    exact ⟨h.push hk (hopen hi) hprog he hgt, by rw [he, List.take_append_of_le_length hk]⟩
  · have hsub := drop_dropLast_sublist s.stack k
    rw [← he] at hsub
    refine ⟨h.of_sublist hsub hprog fun p hp => hlt p (hsub.subset hp), ?_⟩
    rw [he, List.dropLast_eq_take, List.take_take, List.length_take]
    congr 1
    omega

/-- Settles O44: an effect pushes a `[` position at or above all new entries, pops the highest entry, or leaves
the stack. -/
theorem newEntriesStayOrdered : Obligations.NewEntriesStayOrdered := by
  refine ⟨fun k s t hk hn h => ?_, fun s t src _ => ?_⟩
  · obtain rfl | ⟨-, ch, i, hch, hi, e⟩ := step_effect h
    · rw [Nat.min_eq_left hk]
      exact ⟨hn, rfl⟩
    · exact e.keeps_new_entries (pc_lt_of_fetched hch)
        (fun ho => fetched_openLoop hch (hi.trans ho)) hk hn
  · simp [State.NewEntriesOrdered]

/-- Strictly rising positions of one character in a text are at most as many as its occurrences. -/
theorem length_le_count_of_positions {α : Type} [DecidableEq α] {text : List α} {ch : α}
    {l : List Nat} (hord : l.Pairwise (· < ·)) (hpos : ∀ e ∈ l, text[e]? = some ch) :
    l.length ≤ text.count ch := by
  have hlt : ∀ e ∈ l, e < text.length := fun e he => (List.getElem?_eq_some_iff.1 (hpos e he)).1
  lift l to List (Fin text.length) using hlt
  have hrep : l.map (text[·]) = List.replicate l.length ch := by
    refine List.eq_replicate_iff.2 ⟨List.length_map _, fun c hc => ?_⟩
    obtain ⟨e, he, rfl⟩ := List.mem_map.1 hc
    exact (List.getElem?_eq_some_iff.1 (hpos e (List.mem_map_of_mem he))).2
  have hrise : l.Pairwise (· < ·) := (List.pairwise_map (f := Fin.val)).1 hord
  have hsub : (l.map (text[·])).Sublist text := List.map_getElem_sublist hrise
  rw [hrep, List.replicate_sublist_iff] at hsub
  rwa [List.length_map]

/-- Settles O45: the new entries are rising positions of `[`, so they are a sublist of the program's `[`s. -/
theorem newEntriesBoundedByOpens : Obligations.NewEntriesBoundedByOpens :=
  fun _ _ ⟨hord, hpos⟩ => length_le_count_of_positions hord fun e he => (hpos e he).2

/-! ### Reset, the STATUS register and the tape -/

/-- The bits of `STATUS`, lowest first; every bit above SO reads 0 (R35). -/
theorem State.status_getLsbD (s : State) (k : Nat) :
    s.status.getLsbD k =
      [s.haltBit, s.sticky.uo, s.sticky.uc, s.sticky.ru, s.sticky.so].getD k false := by
  unfold State.status
  by_cases hk : k < 8
  · generalize s.haltBit = halt, s.sticky.uo = uo, s.sticky.uc = uc, s.sticky.ru = ru,
      s.sticky.so = so
    revert k halt uo uc ru so
    decide
  · rw [BitVec.getLsbD_of_ge _ _ (by omega), List.getD_eq_default _ _ (by simp; omega)]

/-- Settles O27: by the bits of the register, of which HALT is `pc` past the program or SO. -/
theorem statusHasItsBits : Obligations.StatusHasItsBits := by
  intro s
  simp only [State.status_getLsbD]
  refine ⟨?_, rfl, rfl, rfl, rfl, rfl, rfl, rfl, by decide⟩
  rw [State.engineState_faulted]
  exact State.haltBit_eq_true_iff

/-- Settles O34: the laws of the tape memory. -/
theorem tapeReadsBackWrites : Obligations.TapeReadsBackWrites :=
  fun m a v => ⟨Memory.read_write_same m a v, fun _ hb => Memory.read_write_other m v hb,
    Memory.wf_write m a v⟩

/-- CONSTRUCT with legal parameters gives a state within all ranges (R42). -/
theorem State.constructed_inv {p : Params} {n : Nat} (hn : 0 < n) (hp : p.stackDepth ≠ some 0) :
    (State.constructed p n).Inv where
  tapeLen_pos := hn
  cursor_lt := hn
  tape_wf := ⟨List.Pairwise.nil, nofun⟩
  tape_in := nofun
  depth_pos := hp
  prog_fits := (Params.fitsProgram_iff _ _).2 fun _ _ => Nat.zero_le _
  prog_legal := nofun
  stack_within := (Params.stackWithin_iff _ _).2 fun _ _ => Nat.zero_le _
  entries_fit := nofun
  pc_fits := (Params.fitsProgram_iff _ _).2 fun _ _ => Nat.zero_le _
  so_full := nofun
  ru_unsupported := nofun

/-- Settles O37: reset is CONSTRUCT at parameters and a tape length that are legal. -/
theorem invariantAtReset : Obligations.InvariantAtReset :=
  ⟨State.constructed_inv (by decide) (by decide), fun _ _ => State.constructed_inv⟩

end Sys2Proof.Machine
end

section
/-! What an execution reads and writes of the tape (R44), and the channel access it records (R52). -/

namespace Sys2Proof.Machine

/-! ### The tape beyond the current cell -/

/-- A change of a tape that keeps it or sets cell `a` to a value chosen without the tape. -/
inductive CellUpdate (a : Nat) : (Memory → Memory) → Prop
  | keep : CellUpdate a id
  | write (v : Byte) : CellUpdate a (·.write a v)

theorem CellUpdate.read_same {a : Nat} {g : Memory → Memory} (hg : CellUpdate a g) {m m' : Memory}
    (h : m.read a = m'.read a) : (g m).read a = (g m').read a := by
  cases hg with
  | keep => exact h
  | write v => rw [Memory.read_write_same, Memory.read_write_same]

theorem CellUpdate.read_other {a b : Nat} {g : Memory → Memory} (hg : CellUpdate a g) (m : Memory)
    (h : b ≠ a) : (g m).read b = m.read b := by
  cases hg with
  | keep => rfl
  | write v => exact Memory.read_write_other m v h

theorem mapNext_eq_next {f : State → State} {k : Result} {t u : State} (hk : k = .next t)
    (h : mapNext f k = .next u) : u = f t := by
  rw [hk] at h
  cases h
  rfl

theorem State.currentCell_withTape {s : State} {m : Memory}
    (h : m.read s.cursor = s.tape.read s.cursor) : (s.withTape m).currentCell = s.currentCell := h

theorem State.cellNonzero_withTape {s : State} {m : Memory}
    (h : m.read s.cursor = s.tape.read s.cursor) : (s.withTape m).cellNonzero = s.cellNonzero := by
  rw [State.cellNonzero, State.currentCell_withTape h, State.cellNonzero]

/-- An operation on the current cell of another tape changes its outcome as the operation itself does. -/
theorem State.onCell_withTape {f : State → State} {s : State} {m : Memory} {k k' : Result}
    (h : k' = mapNext f k) : (s.withTape m).onCell k' = mapNext f (s.onCell k) := by
  rw [mapNext_onCell, h]
  rfl

theorem State.receive_withTape (s : State) (m : Memory) :
    (s.withTape m).receive = s.receive.map fun r => (r.1, r.2.withTape m) := by
  unfold State.receive
  simp only [State.withTape_input]
  split
  · rfl
  · split <;> rfl

theorem State.push_withTape (s : State) (m : Memory) (p : Nat) :
    (s.withTape m).push p = (s.push p).map (·.withTape m) := by
  unfold State.push
  simp only [State.withTape_params, State.withTape_stack]
  split <;> rfl

theorem State.afterUnmatchedOpen_withTape (s : State) (m : Memory) :
    (s.withTape m).afterUnmatchedOpen = s.afterUnmatchedOpen.withTape m := by
  unfold State.afterUnmatchedOpen
  simp only [State.withTape_params]
  split <;> rfl

/-- With `READ_IMPL = Input`, `,` writes the received value, which no tape determines (R84, R85). -/
theorem exec_consoleRead_withTape (s : State) : ∃ g, CellUpdate s.cursor g ∧
    ∀ m, exec .consoleRead (s.withTape m) = mapNext (·.withTape (g m)) (exec .consoleRead s) := by
  simp only [exec, execConsoleRead, State.withTape_params]
  split
  · cases hr : s.receive with
    | none =>
      refine ⟨_, .keep, fun m => State.onCell_withTape ?_⟩
      rw [State.receive_withTape, hr]
      rfl
    | some r =>
      have hcur : r.2.cursor = s.cursor := by rw [(State.receive_eq_some hr).1]; rfl
      refine ⟨_, .write r.1, fun m => State.onCell_withTape ?_⟩
      rw [State.receive_withTape, hr, ← hcur]
      rfl
  · exact ⟨_, .keep, fun _ => rfl⟩

theorem exec_openLoop_withTape {s : State} {m : Memory}
    (h : m.read s.cursor = s.tape.read s.cursor) :
    exec .openLoop (s.withTape m) = mapNext (·.withTape m) (exec .openLoop s) := by
  refine State.onCell_withTape ?_
  rw [State.cellNonzero_withTape h]
  cases s.cellNonzero with
  | true =>
    simp only [State.push_withTape, State.withTape_pc]
    cases s.push s.pc <;> rfl
  | false =>
    simp only [State.withTape_prog, State.withTape_pc]
    cases scanForward s.prog s.pc with
    | found p => rfl
    | notFound => exact congrArg State.completed (State.afterUnmatchedOpen_withTape (s.raise .uo) m)

theorem exec_closeLoop_withTape {s : State} {m : Memory}
    (h : m.read s.cursor = s.tape.read s.cursor) :
    exec .closeLoop (s.withTape m) = mapNext (·.withTape m) (exec .closeLoop s) := by
  refine State.onCell_withTape ?_
  rw [State.cellNonzero_withTape h, show (s.withTape m).top = s.top from rfl]
  cases s.cellNonzero with
  | true => cases s.top <;> rfl
  | false => rfl

/-- One update of the current cell says what an instruction does to every tape that agrees there; all else of
its outcome is the same on each of them (R44). -/
theorem exec_withTape (i : Instr) (s : State) : ∃ g, CellUpdate s.cursor g ∧
    ∀ m : Memory, m.read s.cursor = s.tape.read s.cursor →
      exec i (s.withTape m) = mapNext (·.withTape (g m)) (exec i s) := by
  cases i with
  | moveLeft => exact ⟨_, .keep, fun _ _ => rfl⟩
  | moveRight => exact ⟨_, .keep, fun _ _ => rfl⟩
  | increment =>
    refine ⟨_, .write (s.currentCell + 1#8), fun m h => State.onCell_withTape ?_⟩
    rw [State.currentCell_withTape h]
    rfl
  | decrement =>
    refine ⟨_, .write (s.currentCell - 1#8), fun m h => State.onCell_withTape ?_⟩
    rw [State.currentCell_withTape h]
    rfl
  | consolePrint =>
    refine ⟨_, .keep, fun m h => State.onCell_withTape ?_⟩
    rw [State.currentCell_withTape h]
    rfl
  | consoleRead =>
    obtain ⟨g, hg, he⟩ := exec_consoleRead_withTape s
    exact ⟨g, hg, fun m _ => he m⟩
  | openLoop => exact ⟨_, .keep, fun _ => exec_openLoop_withTape⟩
  | closeLoop => exact ⟨_, .keep, fun _ => exec_closeLoop_withTape⟩
  | skip ch => exact ⟨_, .keep, fun _ _ => rfl⟩

/-- Settles O35: by the one cell update that an instruction makes on every tape agreeing at the cursor, the
state's own among them. -/
theorem onlyCurrentCellIsReached : Obligations.OnlyCurrentCellIsReached := by
  intro i s m hm
  obtain ⟨g, hg, he⟩ := exec_withTape i s
  refine ⟨?_, fun t u ht hu => ?_⟩
  · rw [he m hm]
    cases exec i s <;> rfl
  · have ht' : t.tape = g s.tape :=
      congrArg State.tape (mapNext_eq_next ht ((he s.tape rfl).symm.trans ht))
    have hu' : u = t.withTape (g m) := mapNext_eq_next ht ((he m hm).symm.trans hu)
    rw [hu', ht']
    exact ⟨hg.read_same hm, fun a ha => ⟨hg.read_other s.tape ha, hg.read_other m ha⟩⟩

/-! ### The channel access of a step -/

theorem decode_consolePrint_iff (ch : Character) :
    decode ch = .consolePrint ↔ ch = Config.codes.consolePrint := by
  unfold decode
  repeat' split
  all_goals simp_all [Config.codes]

theorem fetched_consolePrint {s : State} {ch : Character} (hch : s.prog[s.pc]? = some ch)
    (hi : decode ch = .consolePrint) : s.prog[s.pc]? = some Config.codes.consolePrint := by
  rw [hch, (decode_consolePrint_iff ch).1 hi]

/-- A `,` that completes stores the value whose access it records, or reports without an access (R84, R86). -/
theorem execConsoleRead_events {s t : State} (h : exec .consoleRead s = .next t) :
    t.events = s.events ∨
      ∃ v, t.events = s.events ++ [.received v] ∧ t.tape.read s.cursor = v := by
  obtain ⟨-, -, v, r, hr, rfl⟩ | ⟨-, rfl⟩ := execConsoleRead_next h
  · rw [(State.receive_eq_some hr).1]
    exact .inr ⟨v, rfl, Memory.read_write_same _ _ _⟩
  · exact .inl rfl

theorem execOpenLoop_events {s t : State} (h : exec .openLoop s = .next t) :
    t.events = s.events := by
  obtain ⟨-, ⟨-, -, rfl⟩ | ⟨-, -, rfl⟩ | ⟨-, m, -, rfl⟩ | ⟨-, -, rfl⟩⟩ := execOpenLoop_next h
  · rfl
  · rfl
  · rfl
  · rw [State.afterUnmatchedOpen_eq]
    rfl

theorem execCloseLoop_events {s t : State} (h : exec .closeLoop s = .next t) :
    t.events = s.events := by
  obtain ⟨-, ⟨-, p, -, rfl⟩ | ⟨-, -, rfl⟩ | ⟨-, rfl⟩⟩ := execCloseLoop_next h <;> rfl

/-- Only `.` and `,` access a channel, once at most (R52). -/
theorem exec_events {i : Instr} {s t : State} (h : exec i s = .next t) :
    t.events = s.events ∨
      (i = .consolePrint ∧ t.events = s.events ++ [.emitted s.currentCell]) ∨
      (i = .consoleRead ∧
        ∃ v, t.events = s.events ++ [.received v] ∧ t.tape.read s.cursor = v) := by
  cases i with
  | moveLeft => exact .inl (execMoveLeft_next h ▸ rfl)
  | moveRight => exact .inl (execMoveRight_next h ▸ rfl)
  | increment => exact .inl ((execIncrement_next h).2 ▸ rfl)
  | decrement => exact .inl ((execDecrement_next h).2 ▸ rfl)
  | consolePrint => exact .inr (.inl ⟨rfl, (execConsolePrint_next h).2 ▸ rfl⟩)
  | consoleRead => exact (execConsoleRead_events h).imp_right fun hv => .inr ⟨rfl, hv⟩
  | openLoop => exact .inl (execOpenLoop_events h)
  | closeLoop => exact .inl (execCloseLoop_events h)
  | skip ch => exact .inl (execSkip_next h ▸ rfl)

/-- Settles O36: a step changes nothing or executes the character at `pc`, whose instruction makes the access. -/
theorem channelEventsInStepOrder : Obligations.ChannelEventsInStepOrder := by
  intro s t h
  obtain ⟨-, rfl⟩ | ⟨ch, hf, he⟩ := step_next_cases h
  · exact .inl rfl
  · have hch := (State.fetch_eq_some.1 hf).2
    obtain hev | ⟨hi, hev⟩ | ⟨hi, hev⟩ := exec_events he
    · exact .inl hev
    · exact .inr (.inl ⟨fetched_consolePrint hch hi, hev⟩)
    · exact .inr (.inr ⟨fetched_consoleRead hch hi, hev⟩)

end Sys2Proof.Machine
end

section
/-! Decoding and encoding are inverse (R62, R64), and what a STEP answers (R65 to R70). -/

namespace Sys2Proof

/-! ### The decoder and the encoder -/

/-- The characters of the eight operations (R62). -/
theorem Character.isOperation_eq_true_iff {ch : Character} :
    Character.isOperation ch = true ↔
      ch = Config.codes.moveLeft ∨ ch = Config.codes.moveRight ∨ ch = Config.codes.increment ∨
      ch = Config.codes.decrement ∨ ch = Config.codes.consolePrint ∨
      ch = Config.codes.consoleRead ∨ ch = Config.codes.openLoop ∨
      ch = Config.codes.closeLoop := by
  simp [Character.isOperation]

/-- A character that matches none of the eight codes passes through every test of the decoder (R64). -/
theorem decode_of_not_operation {ch : Character} (h : Character.isOperation ch = false) :
    decode ch = .skip ch := by
  rw [← Bool.not_eq_true, Character.isOperation_eq_true_iff] at h
  simp only [not_or] at h
  simp only [decode, h, if_false]

/-- Skip is what exactly the characters without an operation decode to, each to its own Skip. -/
theorem decode_eq_skip_iff {ch c : Character} :
    decode ch = .skip c ↔ Character.isOperation ch = false ∧ ch = c := by
  cases hop : Character.isOperation ch with
  | false => simp [decode_of_not_operation hop]
  | true =>
    obtain rfl | rfl | rfl | rfl | rfl | rfl | rfl | rfl :=
      Character.isOperation_eq_true_iff.1 hop <;> simp [decode, Config.codes]

/-- Skip is well formed exactly with a legal character that is no operation's (R98). -/
theorem wellFormed_skip_iff {w : CharBits} {ch : Character} :
    WellFormed w (.skip ch) = true ↔
      Character.legal w ch = true ∧ Character.isOperation ch = false := by
  simp [WellFormed]

theorem decode_encode {w : CharBits} {i : Instr} (h : WellFormed w i = true) :
    decode (encode i) = i := by
  cases i with
  | skip ch => exact decode_of_not_operation (wellFormed_skip_iff.1 h).2
  | _ => rfl

theorem encode_decode (ch : Character) : encode (decode ch) = ch := by
  cases hop : Character.isOperation ch with
  | false => rw [decode_of_not_operation hop, encode]
  | true =>
    obtain rfl | rfl | rfl | rfl | rfl | rfl | rfl | rfl :=
      Character.isOperation_eq_true_iff.1 hop <;> rfl

/-- What a legal character decodes to is spelled by that character (R73, R98). -/
theorem wellFormed_decode {w : CharBits} {ch : Character} (h : Character.legal w ch = true) :
    WellFormed w (decode ch) = true := by
  cases hd : decode ch with
  | skip c =>
    obtain ⟨hop, rfl⟩ := decode_eq_skip_iff.1 hd
    exact wellFormed_skip_iff.2 ⟨h, hop⟩
  | _ => rfl

/-- Settles O3: an operation by its row of the table, a Skip because its character is no operation's. -/
theorem decodeOfEncode : Obligations.DecodeOfEncode := fun _ _ => decode_encode

/-- Settles O4: by the table for the eight codes, and by the character that a Skip keeps. -/
theorem encodeOfDecode : Obligations.EncodeOfDecode :=
  fun ch => ⟨encode_decode ch, fun _ => wellFormed_decode⟩

/-- Settles O1: the eight rows by evaluation, every other character as no operation's. -/
theorem decodeFollowsCodeTable : Obligations.DecodeFollowsCodeTable := by
  refine ⟨rfl, rfl, rfl, rfl, rfl, rfl, rfl, rfl, fun ch hch => decode_of_not_operation ?_⟩
  rw [← Bool.not_eq_true, Character.isOperation_eq_true_iff]
  simpa [Config.codes] using hch

/-- Settles O2: the words are fixed, so the decoder is run on each. -/
theorem specWordsDecode : Obligations.SpecWordsDecode := by
  unfold Obligations.SpecWordsDecode
  decide

end Sys2Proof

namespace Sys2Proof.Machine

/-! ### The step of a Running and of a stopped engine -/

/-- A Running engine executes the instruction that the character at `pc` decodes to (R66, R67). -/
theorem step_of_running {s : State} {ch : Character} (hso : s.sticky.so = false)
    (hch : s.prog[s.pc]? = some ch) : step s = exec (decode ch) s :=
  step_of_fetch (State.fetch_eq_some.2 ⟨hso, hch⟩)

/-- Settles O5: by the fetch, and for an encoded instruction because the decoder gives it back. -/
theorem stepRunsDecodedInstruction : Obligations.StepRunsDecodedInstruction := by
  refine ⟨fun _ _ => step_of_running, fun s w i hso hwf hch => ?_⟩
  rw [step_of_running hso hch, decode_encode hwf]

/-- RUN returns after its first STEP when that one returns false (R104). -/
theorem State.runCommand_of_false {s t : State} (h : s.stepCommand = (.bool false, t))
    (fuel : Nat) : s.runCommand (fuel + 1) = (.done, t) := by
  simp [State.runCommand, h]

/-- Settles O6: a stopped engine fetches nothing, so its STEP returns false, and a RUN ends with that STEP. -/
theorem stoppedEngineChangesNothing : Obligations.StoppedEngineChangesNothing := by
  intro s h
  have hstep : s.stepCommand = (.bool false, s) :=
    State.stepCommand_stopped (State.haltBit_eq_true_iff.2 h.symm)
  exact ⟨step_of_no_fetch (State.fetch_eq_none.2 h), hstep, State.runCommand_of_false hstep⟩

/-- Settles O7: STEP of a Running engine answers whether SO stayed 0; past the last character the engine is
stopped. -/
theorem executedStepReturnsTrue : Obligations.ExecutedStepReturnsTrue := by
  intro s t hso hpc h ht
  refine ⟨?_, fun hend => State.stepCommand_stopped (State.haltBit_eq_true_iff.2 (.inl hend))⟩
  have hstep := State.stepCommand_running (State.engineState_running.2 ⟨hso, hpc⟩) h
  rwa [ht] at hstep

end Sys2Proof.Machine
end

section
/-! The tape operations (R79 to R82): where `<` and `>` move the cursor, and `+` and `-` as one operation that
adds a constant to the current cell. -/

namespace Sys2Proof.Machine

/-! ### Repeated execution -/

theorem execRepeat_succ_of_next {i : Instr} {s t : State} (h : exec i s = .next t) (n : Nat) :
    execRepeat i (n + 1) s = execRepeat i n t := by
  simp [execRepeat, h]

/-! ### The cursor -/

/-- One cell to the left, wrapping at cell 0, is one less modulo the tape length (R79). -/
theorem cursor_left_eq_emod {c len : Nat} (h : c < len) :
    ((if 0 < c then c - 1 else len - 1 : Nat) : Int) = ((c : Int) - 1) % (len : Int) := by
  split
  · rw [Int.emod_eq_of_lt (by omega) (by omega)]
    omega
  · rw [← Int.add_emod_right, Int.emod_eq_of_lt (by omega) (by omega)]
    omega

/-- One cell to the right, wrapping at the last cell, is one more modulo the tape length (R80). -/
theorem cursor_right_eq_mod {c len : Nat} (h : c < len) :
    (if c < len - 1 then c + 1 else 0) = (c + 1) % len := by
  split
  · rw [Nat.mod_eq_of_lt (by omega)]
  · rw [show c + 1 = len by omega, Nat.mod_self]

theorem exec_moveRight_mod {s : State} (h : s.cursor < s.tapeLen) :
    exec .moveRight s = .next { s with cursor := (s.cursor + 1) % s.tapeLen, pc := s.pc + 1 } := by
  rw [← cursor_right_eq_mod h]
  rfl

/-- `k` moves to the right add `k` to the cursor, modulo the tape length. -/
theorem execRepeat_moveRight (k : Nat) {s : State} (h : s.cursor < s.tapeLen) :
    execRepeat .moveRight k s =
      some { s with cursor := (s.cursor + k) % s.tapeLen, pc := s.pc + k } := by
  induction k generalizing s with
  | zero => simp [execRepeat, Nat.mod_eq_of_lt h]
  | succ k ih =>
    rw [execRepeat_succ_of_next (exec_moveRight_mod h), ih (Nat.mod_lt _ (Nat.zero_lt_of_lt h))]
    simp only [Nat.mod_add_mod, Nat.add_assoc, Nat.add_comm 1 k]

/-- Settles O8: the next state is the model's own; its cursor is one less modulo the tape length. -/
theorem moveLeftMovesCursor : Obligations.MoveLeftMovesCursor := by
  refine fun s => ⟨rfl, fun h => ⟨_, rfl, ?_, cursor_left_eq_emod h⟩⟩
  simp only [State.advance_cursor, State.advance_tapeLen, State.withCursor_cursor,
    State.withCursor_tapeLen]
  split <;> omega

/-- Settles O9: by the wrap as a remainder, and by induction on the number of moves. -/
theorem moveRightMovesCursor : Obligations.MoveRightMovesCursor := by
  refine ⟨fun _ => rfl, fun _ => exec_moveRight_mod, fun s k hlen hc => ?_⟩
  rw [execRepeat_moveRight k (hc ▸ hlen), hc, Nat.zero_add]

/-! ### The current cell -/

/-- `i` adds `d` to the current cell, where there is one, and advances. -/
def AddsToCell (i : Instr) (d : Byte) : Prop :=
  ∀ s : State, s.cursor < s.tapeLen →
    exec i s = .next (s.writeCell (s.tape.read s.cursor + d)).advance

theorem addsToCell_increment : AddsToCell .increment 1#8 :=
  fun _ h => State.onCell_of_lt h _

theorem addsToCell_decrement : AddsToCell .decrement (-1#8) := fun s h => by
  rw [← BitVec.sub_eq_add_neg]
  exact State.onCell_of_lt h _

/-- One execution changes nothing but `pc` and the current cell, to which it adds `d`. -/
theorem AddsToCell.exec_frame {i : Instr} {d : Byte} (hi : AddsToCell i d) {s : State}
    (h : s.cursor < s.tapeLen) :
    ∃ t, exec i s = .next t ∧ t = { s with tape := t.tape, pc := s.pc + 1 } ∧
      t.tape.read s.cursor = s.tape.read s.cursor + d ∧
      ∀ a, a ≠ s.cursor → t.tape.read a = s.tape.read a :=
  ⟨_, hi s h, rfl, Memory.read_write_same _ _ _, fun _ => Memory.read_write_other _ _⟩

/-- `n` executions complete and add `d` to the current cell `n` times, modulo 256. -/
theorem AddsToCell.execRepeat_read {i : Instr} {d : Byte} (hi : AddsToCell i d) (n : Nat)
    {s : State} (h : s.cursor < s.tapeLen) :
    ∃ t, execRepeat i n s = some t ∧
      t.tape.read s.cursor = s.tape.read s.cursor + BitVec.ofNat 8 n * d := by
  induction n generalizing s with
  | zero => exact ⟨s, rfl, by simp⟩
  | succ n ih =>
    obtain ⟨t, hrun, hread⟩ := ih (s := (s.writeCell (s.tape.read s.cursor + d)).advance) h
    refine ⟨t, (execRepeat_succ_of_next (hi s h) n).trans hrun, hread.trans ?_⟩
    simp only [State.advance_tape, State.advance_cursor, State.writeCell_cursor,
      State.read_writeCell, if_true, BitVec.ofNat_add, add_mul, BitVec.one_mul]
    ring

/-- Settles O10: `+` adds 1, and `n` of them add `n` modulo 256. -/
theorem incrementAddsOne : Obligations.IncrementAddsOne := by
  refine ⟨fun s h => ?_, fun s n h hz => ?_⟩
  · obtain ⟨t, hexec, hframe, hread, hother⟩ := addsToCell_increment.exec_frame h
    refine ⟨t, hexec, hframe, ?_, hother⟩
    rw [hread, BitVec.toNat_add]
    rfl
  · obtain ⟨t, hrun, hread⟩ := addsToCell_increment.execRepeat_read n h
    refine ⟨t, hrun, ?_⟩
    rw [hread, hz, BitVec.mul_one, BitVec.zero_add, BitVec.toNat_ofNat]

/-- Settles O11: `-` adds -1, and `n` of them add `-n` modulo 256. -/
theorem decrementSubtractsOne : Obligations.DecrementSubtractsOne := by
  refine ⟨fun s h => ?_, fun s n h hz => ?_⟩
  · obtain ⟨t, hexec, hframe, hread, hother⟩ := addsToCell_decrement.exec_frame h
    refine ⟨t, hexec, hframe, ?_, hother⟩
    rw [hread, ← BitVec.sub_eq_add_neg, BitVec.toNat_sub]
    simp only [BitVec.toNat_ofNat]
    omega
  · obtain ⟨t, hrun, hread⟩ := addsToCell_decrement.execRepeat_read n h
    refine ⟨t, hrun, ?_⟩
    rw [hread, hz, BitVec.mul_neg, BitVec.mul_one, BitVec.zero_add, BitVec.toNat_neg,
      BitVec.toNat_ofNat]
    omega

end Sys2Proof.Machine
end

section
/-! The channel operations (R83 to R86): what `.` delivers, what `,` takes from the host, and how `,` waits for
the host or reports that it is unsupported. -/

namespace Sys2Proof.Machine

/-! ### ConsolePrint -/

theorem exec_consolePrint_of_lt {s : State} (h : s.cursor < s.tapeLen) :
    exec .consolePrint s = .next (s.emit s.currentCell).advance :=
  State.onCell_of_lt h _

theorem State.outputs_emit (s : State) (v : Byte) : (s.emit v).outputs = s.outputs ++ [v] := by
  simp [State.outputs, ChannelEvent.output]

/-- Settles O12: `.` emits the current cell's value, which the output observation gains at its end. -/
theorem consolePrintEmitsCell : Obligations.ConsolePrintEmitsCell :=
  fun s h => ⟨_, exec_consolePrint_of_lt h, rfl, s.outputs_emit s.currentCell⟩

/-! ### What the host supplies -/

/-- `Receive()` takes the oldest value of the queue first (R85). -/
theorem State.receive_of_queue {s : State} {v : Byte} {rest : List Byte}
    (hq : s.input.queue = v :: rest) :
    s.receive = some (v,
      (s.withInput { s.input with queue := rest }).withEvents (s.events ++ [.received v])) := by
  simp [State.receive, hq]

/-- From an empty queue, `Receive()` takes the free value of an answering host (log 9). -/
theorem State.receive_of_answering {s : State} (hq : s.input.queue = [])
    (ha : s.input.answering = true) :
    s.receive = some (Config.inputValue s.input.draws,
      (s.withInput { s.input with draws := s.input.draws + 1 }).withEvents
        (s.events ++ [.received (Config.inputValue s.input.draws)])) := by
  simp [State.receive, hq, ha]

/-- Settles O14: the two ways `Receive()` gets a value. -/
theorem receiveTakesHostsValue : Obligations.ReceiveTakesHostsValue :=
  ⟨fun _ _ _ hq => ⟨_, State.receive_of_queue hq, rfl⟩,
    fun _ hq ha => ⟨_, State.receive_of_answering hq ha, rfl⟩⟩

/-! ### ConsoleRead -/

/-- A `,` that reads the channel stores what `Receive()` gives and advances (R84). -/
theorem exec_consoleRead_of_received {s r : State} {v : Byte} (hi : s.params.readImpl = .input)
    (hc : s.cursor < s.tapeLen) (hr : s.receive = some (v, r)) :
    exec .consoleRead s = .next (r.writeCell v).advance := by
  simp [exec, execConsoleRead, hi, State.onCell_of_lt hc, hr, State.completed_eq]

/-- A `,` that reads the channel is stuck while the host supplies nothing (R85). -/
theorem exec_consoleRead_of_nothing {s : State} (hi : s.params.readImpl = .input)
    (hc : s.cursor < s.tapeLen) (hr : s.receive = none) :
    exec .consoleRead s = .fault .inputWait := by
  simp [exec, execConsoleRead, hi, State.onCell_of_lt hc, hr]

theorem exec_consoleRead_of_unsupported {s : State} (hu : s.params.readImpl = .unsupported) :
    exec .consoleRead s = .next (s.raise .ru).advance := by
  simp [exec, execConsoleRead, hu, State.completed_eq]

/-- Settles O13: `Receive()` changes the port and the record only, and the write the current cell only. -/
theorem consoleReadStoresReceived : Obligations.ConsoleReadStoresReceived := by
  intro s r v hi hc hr
  have hexec := exec_consoleRead_of_received hi hc hr
  obtain ⟨port, rfl⟩ : ∃ port, r = (s.withInput port).withEvents (s.events ++ [.received v]) :=
    ⟨r.input, (State.receive_eq_some hr).1⟩
  exact ⟨_, hexec, rfl, Memory.read_write_same _ _ _, fun _ => Memory.read_write_other _ _⟩

theorem State.supplyInput_queue (s : State) (v : Byte) :
    (s.supplyInput v).input.queue = s.input.queue ++ [v] := rfl

/-- Settles O15: nothing is received before the host supplies a value, and then that value is. -/
theorem consoleReadWaitsForHost : Obligations.ConsoleReadWaitsForHost := by
  intro s hi hc hq ha
  refine ⟨exec_consoleRead_of_nothing hi hc (State.receive_eq_none.2 ⟨hq, ha⟩), fun v => ?_⟩
  have hqueue : (s.supplyInput v).input.queue = v :: [] := by
    rw [State.supplyInput_queue, hq, List.nil_append]
  have hexec := exec_consoleRead_of_received (s := s.supplyInput v) hi hc
    (State.receive_of_queue hqueue)
  refine ⟨_, hexec, Memory.read_write_same _ _ _, ?_, rfl⟩
  change { s.input with queue := [] } = s.input
  rw [← hq]

/-- Settles O16: `,` only raises RU and advances, and a step that leaves SO at 0 returns true. -/
theorem consoleReadUnsupportedReports : Obligations.ConsoleReadUnsupportedReports := by
  intro s hu
  have hexec := exec_consoleRead_of_unsupported hu
  refine ⟨hexec, fun hso hch => ?_⟩
  have hstep : step s = .next (s.raise .ru).advance := (step_of_running hso hch).trans hexec
  exact (executedStepReturnsTrue s _ hso (pc_lt_of_fetched hch) hstep hso).1

end Sys2Proof.Machine
end

section
/-! The loop operations (R88, R89, R92 to R95): each case of `[` and `]` with its next state, and what a STEP of
it answers. -/

namespace Sys2Proof.Machine

/-! ### OpenLoop -/

/-- A `[` on a nonzero cell enters the loop where the stack has room (R88). -/
theorem exec_openLoop_of_room {s : State} (hc : s.cursor < s.tapeLen) (hz : s.currentCell ≠ 0#8)
    (hroom : s.params.stackDepth ≠ some s.stack.length) :
    exec .openLoop s = .next (s.withStack (s.stack ++ [s.pc])).advance := by
  have hfull : Params.stackFull s.params s.stack.length = false := by
    rw [← Bool.not_eq_true, Params.stackFull_iff]
    exact hroom
  have hpush : s.push s.pc = some (s.withStack (s.stack ++ [s.pc])) :=
    State.push_eq_some.2 ⟨hfull, rfl⟩
  simp [exec, execOpenLoop, State.onCell_of_lt hc, State.cellNonzero_iff.2 hz, hpush,
    State.completed_eq]

/-- A `[` on a nonzero cell overflows a full stack (R120). -/
theorem exec_openLoop_of_full {s : State} (hc : s.cursor < s.tapeLen) (hz : s.currentCell ≠ 0#8)
    (hfull : s.params.stackDepth = some s.stack.length) :
    exec .openLoop s = .next (s.raise .so) := by
  have hpush : s.push s.pc = none := State.push_eq_none.2 ((Params.stackFull_iff _ _).2 hfull)
  simp [exec, execOpenLoop, State.onCell_of_lt hc, State.cellNonzero_iff.2 hz, hpush,
    State.raiseFault_eq]

/-- A `[` on a zero cell resumes after its match (R88). -/
theorem exec_openLoop_of_found {s : State} {m : Nat} (hc : s.cursor < s.tapeLen)
    (hz : s.currentCell = 0#8) (hf : scanForward s.prog s.pc = .found m) :
    exec .openLoop s = .next (s.withPc m).advance := by
  simp [exec, execOpenLoop, State.onCell_of_lt hc, State.cellNonzero_eq_false.2 hz, hf,
    State.completed_eq]

/-- A `[` on a zero cell without a match reports it and goes on as the mode says (R92). -/
theorem exec_openLoop_of_notFound {s : State} (hc : s.cursor < s.tapeLen)
    (hz : s.currentCell = 0#8) (hn : scanForward s.prog s.pc = .notFound) :
    exec .openLoop s = .next (s.raise .uo).afterUnmatchedOpen.advance := by
  simp [exec, execOpenLoop, State.onCell_of_lt hc, State.cellNonzero_eq_false.2 hz, hn,
    State.completed_eq]

theorem State.afterUnmatchedOpen_of_continues {s : State}
    (h : s.params.unmatchedOpenMode = .continues) : s.afterUnmatchedOpen = s := by
  simp [State.afterUnmatchedOpen, h]

theorem State.afterUnmatchedOpen_of_skipToEnd {s : State}
    (h : s.params.unmatchedOpenMode = .skipToEnd) :
    s.afterUnmatchedOpen = s.withPc (s.prog.length - 1) := by
  simp [State.afterUnmatchedOpen, h]

/-- Settles O17: by the four outcomes of `[`, the failed scan once for each mode. -/
theorem openLoopFollowsRule : Obligations.OpenLoopFollowsRule := by
  refine fun s hc => ⟨exec_openLoop_of_room hc, exec_openLoop_of_full hc,
    fun m => exec_openLoop_of_found hc, fun hz hn hmode => ?_, fun hz hn hmode => ?_⟩
  · rw [exec_openLoop_of_notFound hc hz hn,
      State.afterUnmatchedOpen_of_continues (s := s.raise .uo) hmode]
    rfl
  · rw [exec_openLoop_of_notFound hc hz hn,
      State.afterUnmatchedOpen_of_skipToEnd (s := s.raise .uo) hmode]
    rfl

/-! ### CloseLoop -/

/-- A `]` on a nonzero cell repeats from the stack's top (R89, R95). -/
theorem exec_closeLoop_of_top {s : State} {p : Nat} (hc : s.cursor < s.tapeLen)
    (hz : s.currentCell ≠ 0#8) (hp : s.top = some p) :
    exec .closeLoop s = .next (s.withPc p).advance := by
  simp [exec, execCloseLoop, State.onCell_of_lt hc, State.cellNonzero_iff.2 hz, hp,
    State.completed_eq]

/-- A `]` on a nonzero cell and an empty stack only reports it (R93). -/
theorem exec_closeLoop_of_no_top {s : State} (hc : s.cursor < s.tapeLen)
    (hz : s.currentCell ≠ 0#8) (hp : s.top = none) :
    exec .closeLoop s = .next (s.raise .uc).advance := by
  simp [exec, execCloseLoop, State.onCell_of_lt hc, State.cellNonzero_iff.2 hz, hp,
    State.completed_eq]

/-- A `]` on a zero cell pops (R89, R94). -/
theorem exec_closeLoop_of_zero {s : State} (hc : s.cursor < s.tapeLen)
    (hz : s.currentCell = 0#8) : exec .closeLoop s = .next s.pop.advance := by
  simp [exec, execCloseLoop, State.onCell_of_lt hc, State.cellNonzero_eq_false.2 hz,
    State.completed_eq]

theorem State.top_of_concat {s : State} {l : List Nat} {p : Nat} (h : s.stack = l ++ [p]) :
    s.top = some p := by
  rw [State.top, h, List.getLast?_concat]

theorem State.top_of_nil {s : State} (h : s.stack = []) : s.top = none := by
  rw [State.top, h, List.getLast?_nil]

theorem State.pop_of_concat {s : State} {l : List Nat} {p : Nat} (h : s.stack = l ++ [p]) :
    s.pop = s.withStack l := by
  rw [State.pop, h, List.dropLast_concat]

/-- Popping an empty stack changes nothing (R94). -/
theorem State.pop_of_nil {s : State} (h : s.stack = []) : s.pop = s := by
  rw [State.pop, h, List.dropLast_nil, ← h]
  rfl

/-- Settles O18: by the three outcomes of `]`, the pop once for each kind of stack. -/
theorem closeLoopFollowsRule : Obligations.CloseLoopFollowsRule := by
  refine fun s hc => ⟨fun l p hz hs => exec_closeLoop_of_top hc hz (State.top_of_concat hs),
    fun hz hs => exec_closeLoop_of_no_top hc hz (State.top_of_nil hs),
    fun l p hz hs => ?_, fun hz hs => ?_⟩
  · rw [exec_closeLoop_of_zero hc hz, State.pop_of_concat hs]
    rfl
  · rw [exec_closeLoop_of_zero hc hz, State.pop_of_nil hs]
    rfl

/-! ### The STEP of a bracket -/

/-- A STEP of a Running engine whose instruction completes with SO at 0 returns true (R70). -/
theorem State.command_step_of_exec {s t : State} {ch : Character} (hso : s.sticky.so = false)
    (hch : s.prog[s.pc]? = some ch) (h : exec (decode ch) s = .next t)
    (ht : t.sticky.so = false) : s.command .step = (.bool true, t) :=
  (executedStepReturnsTrue s t hso (pc_lt_of_fetched hch) ((step_of_running hso hch).trans h) ht).1

/-- Settles O19: the STEP completes as `[` does, and `SkipToEnd` leaves the engine at the program's end. -/
theorem unmatchedOpenLoopReported : Obligations.UnmatchedOpenLoopReported := by
  intro s hc hso hch hz hn
  obtain ⟨-, -, -, hcontinues, hskip⟩ := openLoopFollowsRule s hc
  refine ⟨fun hmode => ?_, fun hmode => ⟨_, rfl, ?_, ?_⟩⟩
  · exact State.command_step_of_exec hso hch (hcontinues hz hn hmode) hso
  · have hexec := hskip hz hn hmode
    rw [Nat.sub_add_cancel (Nat.one_le_of_lt (pc_lt_of_fetched hch))] at hexec
    exact State.command_step_of_exec hso hch hexec hso
  · exact State.stepCommand_stopped (State.haltBit_eq_true_iff.2 (.inl (Nat.le_refl _)))

/-- Settles O20: the STEP completes as `]` does on an empty stack. -/
theorem unmatchedCloseLoopReported : Obligations.UnmatchedCloseLoopReported := by
  intro s hc hso hch hs
  obtain ⟨-, hnonzero, -, hzero⟩ := closeLoopFollowsRule s hc
  exact ⟨fun hz => State.command_step_of_exec hso hch (hnonzero hz hs) hso,
    fun hz => State.command_step_of_exec hso hch (hzero hz hs) hso⟩

/-- Settles O21: the STEP completes as `]` does on a top entry, whose successor may lie past the program. -/
theorem closeLoopJumpsToTop : Obligations.CloseLoopJumpsToTop := by
  intro s l p hc hso hch hz hs
  obtain ⟨hrepeat, -⟩ := closeLoopFollowsRule s hc
  exact ⟨State.command_step_of_exec hso hch (hrepeat l p hz hs) hso,
    fun hend => State.engineState_halted.2 ⟨hso, hend⟩⟩

end Sys2Proof.Machine
end

section
/-! The bracket matcher (R87, R90, R91, R97): the forward scan finds the syntactic partner, and the scan machine
computes the scan within the bound on its depth. -/

namespace Sys2Proof.Machine

/-! ### The syntactic partner -/

theorem drop_eq_cons_of_getElem? {prog : List Character} {p : Nat} {ch : Character}
    (h : prog[p]? = some ch) : prog.drop p = ch :: prog.drop (p + 1) := by
  rw [List.drop_eq_getElem?_toList_append, h]
  rfl

/-- From a `[`, the scan goes on one bracket deep. -/
theorem scanForward_of_open {prog : List Character} {p : Nat}
    (ho : prog[p]? = some Config.codes.openLoop) :
    scanForward prog p = scanFrom (prog.drop (p + 1)) (p + 1) 1 := by
  rw [scanForward, drop_eq_cons_of_getElem? ho, scanFrom_open]

/-- The running sum of R91 that starts at a `[`. -/
theorem bracketSum_take_of_open {prog : List Character} {p : Nat}
    (ho : prog[p]? = some Config.codes.openLoop) (k : Nat) :
    bracketSum ((prog.drop p).take (k + 1)) = 1 + bracketSum ((prog.drop (p + 1)).take k) := by
  rw [drop_eq_cons_of_getElem? ho, List.take_succ_cons, bracketSum_cons, bracketCount_open]

/-- What the scan finds is the partner (R91): the sum from the `[` on is at least 1 up to there, and then 0. -/
theorem isMatch_of_found {prog : List Character} {p m : Nat}
    (ho : prog[p]? = some Config.codes.openLoop) (h : scanForward prog p = .found m) :
    IsMatch prog p m := by
  rw [scanForward_of_open ho] at h
  obtain ⟨n, rfl, hcl, hzero, hpos⟩ := scanFrom_found_sum (Nat.le_refl 1) h
  rw [List.getElem?_drop] at hcl
  have hlen : p + 1 + n + 1 - p = n + 2 := by omega
  have hinner : ∀ k, 0 < k → k < n + 2 → 1 ≤ bracketSum ((prog.drop p).take k) := by
    intro k h0 hk
    obtain ⟨j, rfl⟩ : ∃ j, k = j + 1 := ⟨k - 1, by omega⟩
    rw [bracketSum_take_of_open ho]
    exact hpos j (by omega)
  have hwhole : bracketSum ((prog.drop p).take (n + 2)) = 0 := by
    rw [bracketSum_take_of_open ho]
    exact hzero
  rw [IsMatch, hlen]
  refine ⟨by omega, (List.getElem?_eq_some_iff.1 hcl).1, hcl, ⟨fun k => ?_, hwhole⟩,
    fun k h0 hk hbal => ?_⟩
  · rw [List.take_take]
    obtain hk | hk := Nat.lt_or_ge k (n + 2)
    · rw [Nat.min_eq_left hk.le]
      obtain rfl | h0 := Nat.eq_zero_or_pos k
      · rfl
      · exact Int.le_trans Int.one_nonneg (hinner k h0 hk)
    · rw [Nat.min_eq_right hk, hwhole]
  · have := hinner k h0 hk
    have := hbal.2
    omega

/-- No partner lies before another, since no shorter text from the `[` on is balanced. -/
theorem IsMatch.le {prog : List Character} {p m n : Nat} (hm : IsMatch prog p m)
    (hn : IsMatch prog p n) : m ≤ n := by
  obtain ⟨-, -, -, -, hproper⟩ := hm
  obtain ⟨hlt, -, -, hbal, -⟩ := hn
  by_contra hgt
  exact hproper _ (by omega) (by omega) hbal

/-- A scan that finds nothing leaves no partner: no sum from the `[` on is 0. -/
theorem not_isMatch_of_notFound {prog : List Character} {p m : Nat}
    (ho : prog[p]? = some Config.codes.openLoop) (h : scanForward prog p = .notFound) :
    ¬ IsMatch prog p m := by
  rintro ⟨hlt, -, -, hbal, -⟩
  rw [scanForward_of_open ho] at h
  have hpos := scanFrom_notFound_sum (Nat.le_refl 1) h (m - p)
  have hzero := hbal.2
  rw [Nat.sub_add_comm hlt.le, bracketSum_take_of_open ho] at hzero
  omega

theorem scanForward_found_iff {prog : List Character} {p m : Nat}
    (ho : prog[p]? = some Config.codes.openLoop) :
    scanForward prog p = .found m ↔ IsMatch prog p m := by
  refine ⟨isMatch_of_found ho, fun hm => ?_⟩
  cases h : scanForward prog p with
  | found n =>
    have hn := isMatch_of_found ho h
    rw [Nat.le_antisymm (hn.le hm) (hm.le hn)]
  | notFound => exact absurd hm (not_isMatch_of_notFound ho h)

/-- Settles O24: the scan finds the one partner, and a `[` on a zero cell resumes after it. -/
theorem scanFindsSyntacticPartner : Obligations.ScanFindsSyntacticPartner :=
  ⟨fun _ _ _ => scanForward_found_iff,
    fun _ _ hc ho hz hm => exec_openLoop_of_found hc hz ((scanForward_found_iff ho).2 hm)⟩

/-! ### The scan machine -/

/-- The number of `[` from position `i` on. -/
def opensFrom (prog : List Character) (i : Nat) : Nat := (prog.drop i).count Config.codes.openLoop

theorem opensFrom_of_open {prog : List Character} {i : Nat}
    (ho : prog[i]? = some Config.codes.openLoop) :
    opensFrom prog i = opensFrom prog (i + 1) + 1 := by
  rw [opensFrom, drop_eq_cons_of_getElem? ho, List.count_cons_self, opensFrom]

theorem opensFrom_of_ne {prog : List Character} {i : Nat} {ch : Character}
    (h : prog[i]? = some ch) (hne : ch ≠ Config.codes.openLoop) :
    opensFrom prog i = opensFrom prog (i + 1) := by
  rw [opensFrom, drop_eq_cons_of_getElem? h, List.count_cons_of_ne hne, opensFrom]

/-- The transition from SCAN(`i`, `d`) to SCAN(`i + 1`, `d'`): the scan that is left to do stays the same, and
the depth grows only by a `[`. -/
structure ScanAdvance (prog : List Character) (i d d' : Nat) : Prop where
  lt_length : i < prog.length
  same_scan : scanFrom (prog.drop i) i d = scanFrom (prog.drop (i + 1)) (i + 1) d'
  depth_pos : 1 ≤ d ∨ prog[i]? = some Config.codes.openLoop → 1 ≤ d'
  depth_le : d' + opensFrom prog (i + 1) ≤ d + opensFrom prog i

/-- One transition leaves to IDLE with the result of the scan, or advances (R97). -/
theorem ScanMachine.next_scan (prog : List Character) (i d : Nat) (r : Option ScanResult) :
    ScanMachine.next prog { state := .scan i d, result := r } =
        { state := .idle, result := some (scanFrom (prog.drop i) i d) } ∨
      ∃ d', ScanMachine.next prog { state := .scan i d, result := r } =
        { state := .scan (i + 1) d', result := none } ∧ ScanAdvance prog i d d' := by
  cases hch : prog[i]? with
  | none =>
    rw [List.drop_eq_nil_of_le (List.getElem?_eq_none_iff.1 hch)]
    exact .inl (by simp [ScanMachine.next, hch, scanFrom])
  | some ch =>
    have hlt := (List.getElem?_eq_some_iff.1 hch).1
    have hdrop := drop_eq_cons_of_getElem? hch
    obtain ⟨rfl, -⟩ | ⟨rfl, -⟩ | ⟨ho, hc, -⟩ := bracketCount_cases ch
    · have hopens := opensFrom_of_open hch
      exact .inr ⟨d + 1, by simp [ScanMachine.next, hch],
        hlt, by rw [hdrop, scanFrom_open], fun _ => by omega, by omega⟩
    · by_cases hd : d - 1 = 0
      · left
        rw [hdrop, scanFrom_close, if_pos hd]
        simp [ScanMachine.next, hch, closeLoop_ne_openLoop, hd]
      · have hopens := opensFrom_of_ne hch closeLoop_ne_openLoop
        exact .inr ⟨d - 1, by simp [ScanMachine.next, hch, closeLoop_ne_openLoop, hd],
          hlt, by rw [hdrop, scanFrom_close, if_neg hd], fun _ => by omega, by omega⟩
    · have hopens := opensFrom_of_ne hch ho
      exact .inr ⟨d, by simp [ScanMachine.next, hch, ho, hc],
        hlt, by rw [hdrop, scanFrom_other ho hc],
        fun h => h.resolve_right fun e => ho (Option.some.inj (hch.symm.trans e)), by omega⟩

/-- The machine in SCAN(`i`, `d`) leaves with the result of the scan from there, once every character that is
left can have been consumed. -/
theorem ScanMachine.run_scan {prog : List Character} {i d n : Nat} {r : Option ScanResult}
    (hn : prog.length - i + 1 ≤ n) :
    ScanMachine.run prog n { state := .scan i d, result := r } =
      { state := .idle, result := some (scanFrom (prog.drop i) i d) } := by
  induction n generalizing i d r with
  | zero => omega
  | succ n ih =>
    rw [ScanMachine.run]
    obtain hnext | ⟨d', hnext, hadv⟩ := ScanMachine.next_scan prog i d r
    · rw [hnext, ScanMachine.run_idle]
    · have := hadv.lt_length
      rw [hnext, ih (by omega), hadv.same_scan]

/-- Settles O25: by induction on the transitions, from any state of the scan. -/
theorem scanMachineComputesScanForward : Obligations.ScanMachineComputesScanForward :=
  fun _ _ _ hn => ScanMachine.run_scan hn

/-- While the machine scans, its depth is at least 1, and with the `[`s that are left at most `b`. -/
def ScanMachine.DepthWithin (prog : List Character) (b : Nat) (m : ScanMachine) : Prop :=
  ∀ i d, m.state = .scan i d → 1 ≤ d ∧ d + opensFrom prog i ≤ b

/-- A transition from SCAN(`i`, `d`) with `d ≥ 1`, or at a `[`, gives or keeps the bound on the depth. -/
theorem ScanMachine.next_scan_depthWithin {prog : List Character} {b i d : Nat}
    (hpos : 1 ≤ d ∨ prog[i]? = some Config.codes.openLoop) (hle : d + opensFrom prog i ≤ b)
    (r : Option ScanResult) :
    ScanMachine.DepthWithin prog b (ScanMachine.next prog { state := .scan i d, result := r }) := by
  intro j e hs
  obtain hnext | ⟨d', hnext, hadv⟩ := ScanMachine.next_scan prog i d r
  · rw [hnext] at hs
    cases hs
  · rw [hnext] at hs
    cases hs
    exact ⟨hadv.depth_pos hpos, Nat.le_trans hadv.depth_le hle⟩

theorem ScanMachine.DepthWithin.next {prog : List Character} {b : Nat} {m : ScanMachine}
    (h : m.DepthWithin prog b) : (m.next prog).DepthWithin prog b := by
  obtain ⟨state, r⟩ := m
  cases state with
  | idle => exact h
  | scan i d =>
    obtain ⟨hpos, hle⟩ := h i d rfl
    exact ScanMachine.next_scan_depthWithin (.inl hpos) hle r

theorem ScanMachine.DepthWithin.run {prog : List Character} {b : Nat} {m : ScanMachine}
    (h : m.DepthWithin prog b) (n : Nat) : (ScanMachine.run prog n m).DepthWithin prog b := by
  induction n generalizing m with
  | zero => exact h
  | succ n ih => exact ih h.next

/-- Settles O26: the first transition consumes the `[`, and each later one keeps the bound. -/
theorem scanDepthIsBounded : Obligations.ScanDepthIsBounded := by
  intro prog p n i d ho hn hs
  obtain ⟨k, rfl⟩ : ∃ k, n = k + 1 := ⟨n - 1, by omega⟩
  have hfirst : ((ScanMachine.start p).next prog).DepthWithin prog (opensFrom prog p) :=
    ScanMachine.next_scan_depthWithin (.inr ho) (by omega) none
  obtain ⟨hpos, hle⟩ := hfirst.run k i d hs
  refine ⟨hpos, Nat.le_trans (Nat.le_add_right _ _) hle, ?_⟩
  rw [← List.length_drop]
  exact List.count_le_length

end Sys2Proof.Machine
end

section
/-! Well-formed programs (R96): in a balanced program loaded on an empty stack, the stack is the enclosing loops,
so both jumps of a loop lead where the text says. -/

namespace Sys2Proof.Machine

/-! ### Balanced texts -/

theorem bracketSum_take_succ {prog : List Character} {p : Nat} {ch : Character}
    (h : prog[p]? = some ch) :
    bracketSum (prog.take (p + 1)) = bracketSum (prog.take p) + bracketCount ch := by
  rw [List.take_add_one, h, bracketSum_append]
  simp [bracketSum]

/-- A `[` whose scan finds nothing would leave the sum of the whole text above 0. -/
theorem Balanced.scanForward_ne_notFound {prog : List Character} (hb : Balanced prog) {p : Nat}
    (ho : prog[p]? = some Config.codes.openLoop) : scanForward prog p ≠ .notFound := by
  intro h
  rw [scanForward_of_open ho] at h
  have hrest := scanFrom_notFound_sum (Nat.le_refl 1) h (prog.drop (p + 1)).length
  have hbefore := hb.1 p
  have hwhole := hb.2
  rw [List.take_length] at hrest
  rw [← List.take_append_drop (p + 1) prog, bracketSum_append, bracketSum_take_succ ho,
    bracketCount_open] at hwhole
  omega

/-- A `]` that no loop encloses would bring the running sum below 0. -/
theorem Balanced.enclosingOpens_ne_nil {prog : List Character} (hb : Balanced prog) {p : Nat}
    (hc : prog[p]? = some Config.codes.closeLoop) : enclosingOpens prog p ≠ [] := by
  intro hnil
  have hlen := enclosingOpens_length hb.1 (List.getElem?_eq_some_iff.1 hc).1.le
  have hsum := hb.1 (p + 1)
  rw [bracketSum_take_succ hc, bracketCount_close, ← hlen, hnil] at hsum
  simp at hsum

/-- No loop encloses the end of a balanced text. -/
theorem Balanced.enclosingOpens_end {prog : List Character} (hb : Balanced prog) :
    enclosingOpens prog prog.length = [] := by
  have hlen := enclosingOpens_length hb.1 (Nat.le_refl prog.length)
  rw [List.take_length, hb.2] at hlen
  exact List.length_eq_zero_iff.1 (Int.ofNat_eq_zero.1 hlen)

/-! ### The loops that enclose the next position -/

theorem enclosingOpens_after_open {prog : List Character} {p : Nat}
    (ho : prog[p]? = some Config.codes.openLoop) :
    enclosingOpens prog (p + 1) = enclosingOpens prog p ++ [p] := by
  rw [enclosingOpens_succ ho, if_pos rfl]

theorem enclosingOpens_after_close {prog : List Character} {p : Nat}
    (hc : prog[p]? = some Config.codes.closeLoop) :
    enclosingOpens prog (p + 1) = (enclosingOpens prog p).dropLast := by
  rw [enclosingOpens_succ hc, if_neg closeLoop_ne_openLoop, if_pos rfl]

theorem enclosingOpens_after_other {prog : List Character} {p : Nat} {ch : Character}
    (h : prog[p]? = some ch) (ho : ch ≠ Config.codes.openLoop) (hc : ch ≠ Config.codes.closeLoop) :
    enclosingOpens prog (p + 1) = enclosingOpens prog p := by
  rw [enclosingOpens_succ h, if_neg ho, if_neg hc]

/-- A skipped loop is closed where the skip resumes. -/
theorem enclosingOpens_after_match {prog : List Character} {p m : Nat}
    (ho : prog[p]? = some Config.codes.openLoop) (h : scanForward prog p = .found m) :
    enclosingOpens prog (m + 1) = enclosingOpens prog p := by
  rw [scanForward_of_open ho] at h
  have hpm := (scanFrom_found_range h).1
  have hp := (List.getElem?_eq_some_iff.1 ho).1
  calc enclosingOpens prog (m + 1)
      = openFrom (prog.take (p + 1) ++ (prog.drop (p + 1)).take (m + 1 - (p + 1))) 0 [] := by
        rw [← List.take_add, Nat.add_sub_cancel' (by omega), enclosingOpens]
    _ = openFrom ((prog.drop (p + 1)).take (m + 1 - (p + 1))) (p + 1)
          (enclosingOpens prog (p + 1)) := by
        rw [openFrom_append, List.length_take, Nat.min_eq_left hp, Nat.zero_add, enclosingOpens]
    _ = enclosingOpens prog p := by
        rw [enclosingOpens_after_open ho]
        exact openFrom_scanned (l' := [p]) (Nat.le_refl 1) rfl h

/-! ### Every step keeps the stack equal to the enclosing loops -/

theorem State.StackEncloses.after_openLoop {s t : State} (hs : s.StackEncloses) (hb : Balanced s.prog)
    (ho : s.prog[s.pc]? = some Config.codes.openLoop) (h : exec .openLoop s = .next t) :
    t.StackEncloses := by
  obtain ⟨hpc, hstack⟩ := hs
  obtain ⟨-, ⟨-, -, rfl⟩ | ⟨-, -, rfl⟩ | ⟨-, m, hm, rfl⟩ | ⟨-, hn, rfl⟩⟩ := execOpenLoop_next h
  · refine ⟨pc_lt_of_fetched ho, ?_⟩
    change s.stack ++ [s.pc] = enclosingOpens s.prog (s.pc + 1)
    rw [enclosingOpens_after_open ho, hstack]
  · exact ⟨hpc, hstack⟩
  · exact ⟨(scanForward_found_range hm).2, hstack.trans (enclosingOpens_after_match ho hm).symm⟩
  · exact absurd hn (hb.scanForward_ne_notFound ho)

theorem State.StackEncloses.after_closeLoop {s t : State} (hs : s.StackEncloses) (hb : Balanced s.prog)
    (hc : s.prog[s.pc]? = some Config.codes.closeLoop) (h : exec .closeLoop s = .next t) :
    t.StackEncloses := by
  obtain ⟨hpc, hstack⟩ := hs
  obtain ⟨-, ⟨-, p, hp, rfl⟩ | ⟨-, hnil, rfl⟩ | ⟨-, rfl⟩⟩ := execCloseLoop_next h
  · have hopens : enclosingOpens s.prog s.pc = s.stack.dropLast ++ [p] := by
      rw [← hstack, List.dropLast_append_getLast? p hp]
    obtain ⟨hlt, ho, houter, -⟩ := enclosingOpens_top hpc hopens
    refine ⟨Nat.le_trans hlt hpc, hstack.trans ?_⟩
    change enclosingOpens s.prog s.pc = enclosingOpens s.prog (p + 1)
    rw [enclosingOpens_after_open ho, houter, hopens]
  · exact absurd (hstack.symm.trans hnil) (hb.enclosingOpens_ne_nil hc)
  · refine ⟨pc_lt_of_fetched hc, ?_⟩
    change s.stack.dropLast = enclosingOpens s.prog (s.pc + 1)
    rw [enclosingOpens_after_close hc, hstack]

/-- An instruction other than a bracket leaves the stack and goes on at the next character. -/
theorem ExecEffect.next_of_not_bracket {i : Instr} {s t : State} (e : ExecEffect i s t)
    (ho : i ≠ .openLoop) (hc : i ≠ .closeLoop) : t.stack = s.stack ∧ t.pc = s.pc + 1 := by
  cases e with
  | straight h => exact ⟨h.stack, h.pc⟩
  | unsupportedRead => exact ⟨rfl, rfl⟩
  | enter | overflow | skipLoop | unmatchedOpen => exact absurd rfl ho
  | repeatLoop | unmatchedClose | leave => exact absurd rfl hc

theorem State.StackEncloses.after_other {s t : State} {ch : Character} (hs : s.StackEncloses)
    (hch : s.prog[s.pc]? = some ch) (ho : decode ch ≠ .openLoop) (hc : decode ch ≠ .closeLoop)
    (h : exec (decode ch) s = .next t) : t.StackEncloses := by
  have e := exec_effect h
  obtain ⟨hstack, hpc⟩ := e.next_of_not_bracket ho hc
  rw [Ne, decode_openLoop_iff] at ho
  rw [Ne, decode_closeLoop_iff] at hc
  rw [State.StackEncloses, e.frame.2.2, hstack, hpc, enclosingOpens_after_other hch ho hc]
  exact ⟨pc_lt_of_fetched hch, hs.2⟩

/-- Every step of a balanced program keeps the stack equal to the enclosing loops (R96 (c)). -/
theorem State.StackEncloses.after_step {s t : State} (hs : s.StackEncloses) (hb : Balanced s.prog)
    (h : step s = .next t) : t.StackEncloses := by
  obtain ⟨-, rfl⟩ | ⟨ch, hf, he⟩ := step_next_cases h
  · exact hs
  have hch := (State.fetch_eq_some.1 hf).2
  by_cases ho : decode ch = .openLoop
  · exact hs.after_openLoop hb (fetched_openLoop hch ho) (ho ▸ he)
  by_cases hc : decode ch = .closeLoop
  · exact hs.after_closeLoop hb (fetched_closeLoop hch hc) (hc ▸ he)
  · exact hs.after_other hch ho hc he

/-! ### No structural error, and the partners -/

/-- A step leaves a sticky bit whose event is not due. -/
theorem step_bit_eq {s t : State} {c : Cause} (h : step s = .next t) (hc : ¬ s.EventDue c) :
    t.sticky.bit c = s.sticky.bit c :=
  Bool.eq_iff_iff.2 ⟨fun ht => (step_bit_set c h ht).resolve_right hc,
    fun hs => step_keeps_bit c s t hs h⟩

theorem Balanced.not_eventDue_uo {s : State} (hb : Balanced s.prog) : ¬ s.EventDue .uo :=
  fun ⟨ho, _, hn⟩ => hb.scanForward_ne_notFound ho hn

theorem State.StackEncloses.not_eventDue_uc {s : State} (hs : s.StackEncloses)
    (hb : Balanced s.prog) : ¬ s.EventDue .uc :=
  fun ⟨hc, _, hnil⟩ => hb.enclosingOpens_ne_nil hc (hs.2.symm.trans hnil)

/-- Settles O47: each instruction keeps the stack equal to the enclosing loops; with that, no event of R118 or
R119 is due. -/
theorem wellFormedProgramStack : Obligations.WellFormedProgramStack := by
  refine ⟨fun s t hb hs h => ?_, fun s hb hs hend => ?_, fun s t src hs h => ?_⟩
  · exact ⟨hs.after_step hb h, step_bit_eq (c := .uo) h hb.not_eventDue_uo,
      step_bit_eq (c := .uc) h (hs.not_eventDue_uc hb)⟩
  · obtain ⟨hpc, hstack⟩ := hs
    rw [hstack, Nat.le_antisymm hpc hend, hb.enclosingOpens_end]
  · rw [(State.load_eq_some.1 h).2]
    exact ⟨Nat.zero_le _, hs.trans (enclosingOpens_zero src).symm⟩

/-- The innermost loop that encloses a `]` is closed by it. -/
theorem isMatch_of_enclosingOpens {prog : List Character} {p q : Nat} {l : List Nat}
    (hc : prog[q]? = some Config.codes.closeLoop) (h : enclosingOpens prog q = l ++ [p]) :
    prog[p]? = some Config.codes.openLoop ∧ IsMatch prog p q := by
  obtain ⟨-, ho, -, hscan⟩ := enclosingOpens_top (List.getElem?_eq_some_iff.1 hc).1.le h
  refine ⟨ho, isMatch_of_found ho ?_⟩
  rw [scanForward, hscan, drop_eq_cons_of_getElem? hc, scanFrom_close, if_pos rfl]

/-- Settles O48: in a balanced text every scan from a `[` succeeds, and the top at a `]` is the innermost loop
that encloses it. -/
theorem wellFormedBracketsMatch : Obligations.WellFormedBracketsMatch := by
  refine fun s hb hs => ⟨fun ho => ?_, fun hc => ?_⟩
  · cases h : scanForward s.prog s.pc with
    | found m => exact ⟨m, rfl, isMatch_of_found ho h⟩
    | notFound => exact absurd h (hb.scanForward_ne_notFound ho)
  · obtain hnil | ⟨l, p, hl⟩ := (enclosingOpens s.prog s.pc).eq_nil_or_concat
    · exact absurd hnil (hb.enclosingOpens_ne_nil hc)
    · rw [List.concat_eq_append] at hl
      exact ⟨p, State.top_of_concat (hs.2.trans hl), isMatch_of_enclosingOpens hc hl⟩

end Sys2Proof.Machine
end

section
/-! The default operation (R98): Skip is the common advance, and its STEP returns true. -/

namespace Sys2Proof.Machine

/-- Skip completes by the common advance alone, in every state and whatever its character (R98). -/
theorem exec_skip (ch : Character) (s : State) : exec (.skip ch) s = .next s.advance := rfl

/-- Settles O23: a character of no operation decodes to its Skip, and the advance leaves SO at 0. -/
theorem skipOnlyAdvances : Obligations.SkipOnlyAdvances := by
  refine ⟨exec_skip, fun s ch hso hch hop => ?_⟩
  have hexec : exec (decode ch) s = .next s.advance := by
    rw [decode_of_not_operation hop, exec_skip]
  exact State.command_step_of_exec hso hch hexec hso

end Sys2Proof.Machine
end

section
/-! The host interface (R99 to R108): what each command of the host answers, what it leaves unchanged, and that
every command keeps the ranges of the state. -/

namespace Sys2Proof.Machine

/-! ### CONSTRUCT -/

/-- CONSTRUCT(0) is refused, and the model keeps the old instance (R100, log 18). -/
theorem State.command_construct_zero (s : State) : s.command (.construct 0) = (.refused, s) := rfl

/-- `STATUS` reads 0x01 when the engine is Halted with no event reported (R35, R42). -/
theorem State.status_of_no_event {s : State} (hh : s.haltBit = true)
    (hb : s.sticky = { uo := false, uc := false, ru := false, so := false }) :
    s.status = 0x01#8 := by
  simp [State.status, hh, hb]

/-- An engine without a StackOverflow runs after the LOAD of a non-empty source (R40, R101). -/
theorem State.load_running {s t : State} {src : List Character} (hso : s.sticky.so = false)
    (hsrc : src ≠ []) (h : s.load src = some t) : t.engineState = .running := by
  obtain ⟨-, rfl⟩ := State.load_eq_some.1 h
  exact State.engineState_running.2 ⟨hso, List.length_pos_iff.2 hsrc⟩

/-- Settles O49: the instance CONSTRUCT makes is the reset state of its tape length, whose empty program halts the
engine until a LOAD. -/
theorem constructResetsEverything : Obligations.ConstructResetsEverything := by
  refine ⟨fun s n hn => ⟨_, State.command_construct s hn, ?_⟩, fun s => by
    rw [State.command_construct_zero]⟩
  have hhalt : (((State.constructed s.params n).withInput s.input).withEvents s.events).haltBit
      = true := State.haltBit_eq_true_iff.2 (.inl (Nat.zero_le _))
  exact ⟨rfl, fun _ => rfl, rfl, rfl, rfl, rfl, State.status_of_no_event hhalt rfl,
    State.engineState_halted.2 ⟨rfl, Nat.zero_le _⟩, State.stepCommand_stopped hhalt,
    fun _ _ => State.load_running rfl⟩

/-! ### LOAD -/

theorem State.command_load_of_fits {s : State} {src : List Character}
    (h : Params.fitsProgram s.params src.length = true) :
    s.command (.load src) = (.ok, (s.withProg src).withPc 0) := by
  simp only [State.command, State.load_eq_some.2 ⟨h, rfl⟩]

theorem State.command_load_of_not_fits {s : State} {src : List Character}
    (h : Params.fitsProgram s.params src.length ≠ true) :
    s.command (.load src) = (.refused, s) := by
  simp [State.command, State.load, h]

/-- Settles O50: a LOAD succeeds exactly when the source fits the program store. -/
theorem loadReplacesProgramOnly : Obligations.LoadReplacesProgramOnly := by
  refine fun s src => ⟨fun hfit => ?_, fun k hk hlt => ?_⟩
  · exact State.command_load_of_fits ((Params.fitsProgram_iff _ _).2 hfit)
  · refine State.command_load_of_not_fits fun hfit => ?_
    exact absurd ((Params.fitsProgram_iff _ _).1 hfit k hk) (Nat.not_le.2 hlt)

/-! ### RUN -/

/-- RUN goes on from the state after a STEP that returned true (R104). -/
theorem State.runCommand_of_true {s t : State} (h : s.stepCommand = (.bool true, t))
    (fuel : Nat) : s.runCommand (fuel + 1) = t.runCommand fuel := by
  simp [State.runCommand, h]

/-- `m` STEPs that return true use up `m` of RUN's budget. -/
theorem StepsReturnTrue.runCommand_add {m : Nat} {s t : State} (h : StepsReturnTrue m s t)
    (fuel : Nat) : s.runCommand (fuel + m) = t.runCommand fuel := by
  induction m generalizing s with
  | zero => rw [show t = s from h, Nat.add_zero]
  | succ m ih =>
    obtain ⟨u, hu, hrest⟩ := h
    calc s.runCommand (fuel + m + 1)
      _ = u.runCommand (fuel + m) := State.runCommand_of_true hu _
      _ = t.runCommand fuel := ih hrest

/-- Settles O52: after the `m` true STEPs what is left of the budget is spent from `t`, where nothing left is
unfinished and anything left meets the STEP that returns false. -/
theorem runRepeatsStep : Obligations.RunRepeatsStep := by
  intro m s t u h
  refine ⟨fun hfalse fuel hlt => ?_, ?_⟩
  · obtain ⟨k, rfl⟩ : ∃ k, fuel = k + 1 + m := ⟨fuel - m - 1, by omega⟩
    exact (h.runCommand_add (k + 1)).trans (State.runCommand_of_false hfalse k)
  · have hrun := h.runCommand_add 0
    rwa [Nat.zero_add] at hrun

/-! ### INSPECT -/

/-- INSPECT answers the value it asks for, if there is one, and changes no state (R106). -/
theorem State.command_inspect_of_some {s : State} {what : Inspect} {v : InspectValue}
    (h : s.inspect what = some v) : s.command (.inspect what) = (.value v, s) := by
  simp only [State.command, h]

theorem State.command_inspect_of_none {s : State} {what : Inspect} (h : s.inspect what = none) :
    s.command (.inspect what) = (.refused, s) := by
  simp only [State.command, h]

/-- Settles O51: each request by the value it asks for, and `HALT` by the engine state. -/
theorem inspectReadsWithoutEffect : Obligations.InspectReadsWithoutEffect := by
  refine fun s => ⟨fun i hi => ?_, fun i hi => ?_, State.command_inspect_of_some rfl,
    State.command_inspect_of_some rfl, State.command_inspect_of_some rfl,
    State.command_inspect_of_some rfl, State.command_inspect_of_some rfl, ?_⟩
  · exact State.command_inspect_of_some (if_pos hi)
  · exact State.command_inspect_of_none (if_neg (Nat.not_lt.2 hi))
  · have hbit : s.status.getLsbD 0 = s.haltBit := s.status_getLsbD 0
    rw [hbit, Ne, ← State.haltBit_eq_false_iff, Bool.not_eq_false]

/-! ### The invariant under every command -/

/-- The ranges speak neither of the input port nor of the record of channel accesses. -/
theorem State.Inv.with_channels {s : State} (hi : s.Inv) (p : InputPort) (l : List ChannelEvent) :
    ((s.withInput p).withEvents l).Inv :=
  { hi with }

/-- A LOAD of characters of `CHAR_BITS` keeps the ranges: only program and `pc` are new (R101). -/
theorem State.Inv.load {s t : State} {src : List Character} (hi : s.Inv)
    (hlegal : ∀ ch ∈ src, Character.legal s.params.charBits ch = true)
    (h : s.load src = some t) : t.Inv := by
  obtain ⟨hfits, rfl⟩ := State.load_eq_some.1 h
  exact { hi with
    prog_fits := hfits
    prog_legal := hlegal
    pc_fits := Params.fitsProgram_mono (Nat.zero_le _) hfits }

/-- A CONSTRUCT, refused or not, keeps the ranges (R100, R42). -/
theorem State.Inv.command_construct {s : State} (hi : s.Inv) (n : Nat) :
    (s.command (.construct n)).2.Inv := by
  obtain rfl | hn := Nat.eq_zero_or_pos n
  · exact hi
  · rw [State.command_construct s hn.ne']
    exact (State.constructed_inv hn hi.depth_pos).with_channels _ _

/-- Settles O39: CONSTRUCT gives a reset state, and every other command is made of steps and LOADs. -/
theorem commandsKeepInvariant : Obligations.CommandsKeepInvariant := by
  intro s c hi hlegal
  by_cases hc : ∃ n, c = .construct n
  · obtain ⟨n, rfl⟩ := hc
    exact hi.command_construct n
  · refine State.command_keeps (fun _ _ => step_keeps_inv) hi (fun n hn => hc ⟨n, hn⟩) ?_
    exact fun src t hsrc ht => hi.load (hlegal src hsrc) ht

end Sys2Proof.Machine
end

section
/-! The events (R116 to R127): which `STATUS` bit each sets, that an instruction raises one at most, what a
StackOverflow leaves behind, and that nothing but a waiting `,` keeps a step from completing. -/

namespace Sys2Proof.Machine

/-! ### The bit of an event -/

/-- An event's code is the index at which `STATUS` shows its sticky bit (R35, R117). -/
theorem State.status_getLsbD_code (s : State) (c : Cause) :
    s.status.getLsbD c.code = s.sticky.bit c := by
  rw [State.status_getLsbD]
  cases c <;> rfl

/-- Every bit of `STATUS` but the computed HALT shows an event or is hardwired to 0 (R35). -/
theorem State.status_getLsbD_of_not_code (s : State) {k : Nat} (hk : k ≠ 0)
    (hcode : ∀ d : Cause, k ≠ d.code) : s.status.getLsbD k = false := by
  have huo : k ≠ 1 := hcode .uo
  have huc : k ≠ 2 := hcode .uc
  have hru : k ≠ 3 := hcode .ru
  have hso : k ≠ 4 := hcode .so
  rw [State.status_getLsbD, List.getD_eq_default _ _ (by simp only [List.length]; omega)]

/-- Settles O28: a bit of `STATUS` other than HALT is an event's, where raising `c` changes that of `c` alone, or
it is hardwired. -/
theorem raiseSetsItsStatusBit : Obligations.RaiseSetsItsStatusBit := by
  refine ⟨⟨rfl, rfl, rfl, rfl⟩, fun s c => ⟨?_, fun k hk hc => ?_, rfl⟩⟩
  · rw [State.status_getLsbD_code, State.raise_sticky, StickyBits.bit_set, decide_eq_true rfl,
      Bool.or_true]
  · by_cases hcode : ∃ d : Cause, k = d.code
    · obtain ⟨d, rfl⟩ := hcode
      have hne : c ≠ d := fun e => hc (e ▸ rfl)
      rw [State.status_getLsbD_code, State.status_getLsbD_code, State.raise_sticky,
        StickyBits.bit_set, decide_eq_false hne, Bool.or_false]
    · have hcode := not_exists.1 hcode
      rw [State.status_getLsbD_of_not_code _ hk hcode, State.status_getLsbD_of_not_code _ hk hcode]

/-- Settles O31: of the effects, only an unmatched bracket, an overflow and an unsupported `,` raise an event. -/
theorem atMostOneEventPerInstruction : Obligations.AtMostOneEventPerInstruction := by
  intro i s t h
  cases exec_effect h with
  | straight h => exact .inl h.sticky
  | unmatchedOpen zero => exact .inr (.inl ⟨rfl, zero, rfl⟩)
  | overflow nonzero => exact .inr (.inr (.inl ⟨rfl, nonzero, rfl⟩))
  | unmatchedClose => exact .inr (.inr (.inr (.inl ⟨rfl, rfl⟩)))
  | unsupportedRead => exact .inr (.inr (.inr (.inr ⟨rfl, rfl⟩)))
  | _ => exact .inl rfl

/-! ### StackOverflow -/

/-- Settles O22: the step is the `[` on a full stack, the engine it leaves is stopped by SO, and without a stack
depth no StackOverflow is ever due. -/
theorem stackOverflowFaultsEngine : Obligations.StackOverflowFaultsEngine := by
  refine ⟨fun s hc hso hch hz hfull => ⟨s.raise .so, rfl, ?_, ?_, ?_⟩, fun s t hd h => ?_⟩
  · have hrun : s.engineState = .running :=
      State.engineState_running.2 ⟨hso, pc_lt_of_fetched hch⟩
    exact State.stepCommand_running hrun
      ((step_of_running hso hch).trans (exec_openLoop_of_full hc hz hfull))
  · exact State.engineState_faulted.2 rfl
  · have hhalt : (s.raise .so).haltBit = true := State.haltBit_eq_true_iff.2 (.inr rfl)
    exact State.stepCommand_stopped hhalt
  · have hdue : ¬ s.EventDue .so := fun ⟨_, _, hfull⟩ => by
      rw [hd] at hfull
      cases hfull
    exact step_bit_eq h hdue

/-! ### Completion -/

/-- `[` on an existing cell completes in each of its cases (R88). -/
theorem exec_openLoop_completes {s : State} (hc : s.cursor < s.tapeLen) :
    ∃ t, exec .openLoop s = .next t := by
  by_cases hz : s.currentCell = 0#8
  · cases hscan : scanForward s.prog s.pc with
    | found m => exact ⟨_, exec_openLoop_of_found hc hz hscan⟩
    | notFound => exact ⟨_, exec_openLoop_of_notFound hc hz hscan⟩
  · by_cases hfull : s.params.stackDepth = some s.stack.length
    · exact ⟨_, exec_openLoop_of_full hc hz hfull⟩
    · exact ⟨_, exec_openLoop_of_room hc hz hfull⟩

/-- `]` on an existing cell completes in each of its cases (R89). -/
theorem exec_closeLoop_completes {s : State} (hc : s.cursor < s.tapeLen) :
    ∃ t, exec .closeLoop s = .next t := by
  by_cases hz : s.currentCell = 0#8
  · exact ⟨_, exec_closeLoop_of_zero hc hz⟩
  · cases htop : s.top with
    | some p => exact ⟨_, exec_closeLoop_of_top hc hz htop⟩
    | none => exact ⟨_, exec_closeLoop_of_no_top hc hz htop⟩

/-- `,` on an existing cell completes, or reads the channel of a host that supplies nothing (R84 to R86). -/
theorem exec_consoleRead_completes_or_waits {s : State} (hc : s.cursor < s.tapeLen) :
    (∃ t, exec .consoleRead s = .next t) ∨
      (exec .consoleRead s = .fault .inputWait ∧ s.params.readImpl = .input ∧
        s.receive = none) := by
  cases hi : s.params.readImpl with
  | unsupported => exact .inl ⟨_, exec_consoleRead_of_unsupported hi⟩
  | input =>
    cases hr : s.receive with
    | some vr => exact .inl ⟨_, exec_consoleRead_of_received hi hc hr⟩
    | none => exact .inr ⟨exec_consoleRead_of_nothing hi hc hr, rfl, rfl⟩

/-- On an existing cell every instruction completes, unless it is a `,` that waits for the host (R85, R127). -/
theorem exec_completes_or_waits (i : Instr) {s : State} (hc : s.cursor < s.tapeLen) :
    (∃ t, exec i s = .next t) ∨
      (i = .consoleRead ∧ exec i s = .fault .inputWait ∧ s.params.readImpl = .input ∧
        s.receive = none) := by
  cases i with
  | moveLeft => exact .inl ⟨_, rfl⟩
  | moveRight => exact .inl ⟨_, rfl⟩
  | increment => exact .inl ⟨_, State.onCell_of_lt hc _⟩
  | decrement => exact .inl ⟨_, State.onCell_of_lt hc _⟩
  | consolePrint => exact .inl ⟨_, exec_consolePrint_of_lt hc⟩
  | consoleRead => exact (exec_consoleRead_completes_or_waits hc).imp_right fun hw => ⟨rfl, hw⟩
  | openLoop => exact .inl (exec_openLoop_completes hc)
  | closeLoop => exact .inl (exec_closeLoop_completes hc)
  | skip ch => exact .inl ⟨_, exec_skip ch s⟩

/-- Settles O40: a stopped engine's step changes nothing, and a Running one executes an instruction on an existing
cell. -/
theorem stepCompletesOrWaits : Obligations.StepCompletesOrWaits := by
  intro s hinv
  cases hf : s.fetch with
  | none => exact .inl ⟨s, step_of_no_fetch hf⟩
  | some ch =>
    obtain ⟨hso, hch⟩ := State.fetch_eq_some.1 hf
    rw [step_of_fetch hf]
    obtain hnext | ⟨hi, hwait, himpl, hr⟩ := exec_completes_or_waits (decode ch) hinv.cursor_lt
    · exact .inl hnext
    · exact .inr ⟨hwait, State.engineState_running.2 ⟨hso, pc_lt_of_fetched hch⟩,
        fetched_consoleRead hch hi, himpl, State.receive_eq_none.1 hr⟩

end Sys2Proof.Machine
end

section
/-! The stack depth a program needs (R142): at a `[` the new entries are fewer than the program's `[`s. -/

namespace Sys2Proof.Machine

/-- At a `[` the new entries leave room for one more among the program's `[`s: its own position pushed on top of
them gives entries that R31 orders too. -/
theorem State.NewEntriesOrdered.lt_count_of_open {s : State} (h : s.NewEntriesOrdered 0)
    (hopen : s.prog[s.pc]? = some Config.codes.openLoop) :
    s.stack.length < s.prog.count Config.codes.openLoop := by
  have hpush : (s.withStack (s.stack ++ [s.pc])).advance.NewEntriesOrdered 0 :=
    h.push (Nat.zero_le _) hopen rfl rfl (Nat.lt_succ_self _)
  calc s.stack.length + 1
    _ = (s.stack ++ [s.pc]).length := (List.length_append (bs := [s.pc])).symm
    _ ≤ s.prog.count Config.codes.openLoop := newEntriesBoundedByOpens 0 _ hpush

/-- Settles O46: a StackOverflow is due only at a `[` on a full stack, where the stack would hold fewer entries
than the program has `[`. -/
theorem deepEnoughStackNeverFaults : Obligations.DeepEnoughStackNeverFaults := by
  intro s t d hn hd hcount h hso
  have hdue : ¬ s.EventDue .so := fun ⟨hopen, _, hfull⟩ => by
    have hlen : d = s.stack.length := Option.some.inj (hd.symm.trans hfull)
    have hlt := hn.lt_count_of_open hopen
    omega
  exact (step_bit_eq h hdue).trans hso

end Sys2Proof.Machine
end
